-- ==== Sys2Proof/Word.lean ====
section
/-! DEFINITION. The two word types of the block (00_scope.md R7) and nothing else. -/

namespace Sys2Proof

/-- A byte, 0 to 255 (R7). -/
abbrev Byte := BitVec 8

/-- The spec's `u32`: an unsigned 32-bit value (R7). -/
abbrev U32 := BitVec 32

end Sys2Proof
end

