-- ==== Sys2Proof/Syntax.lean ====
section
/-! DEFINITION. The values of `DS.state`, the eight operations and the wire frame header as one inductive,
and the items a host puts on the port: a command (30_encoding.md R57, R61) or the bytes of a frame header as
they stand on the wire (R50). -/

namespace Sys2Proof

/-- `DS.state` (10_state.md R14): what the next byte is taken as. -/
inductive RxState
  | head0 | head1 | head2 | verify | len0 | len1 | len2 | len3 | data
  deriving DecidableEq, Repr, Inhabited

/-- One constructor per row of the opcode table. A unit index is a natural number (R61). -/
inductive Instr
  /-- `LAYOUT_SIZE` (R70). -/
  | layoutSize
  /-- `INIT u` (R71). -/
  | init (u : Nat)
  /-- `DECODE_RESET u` (R73). -/
  | decodeReset (u : Nat)
  /-- `CHECKSUM s` (R81). -/
  | checksum (s : List Byte)
  /-- `ENCODE u, p` (R85). -/
  | encode (u : Nat) (p : List Byte)
  /-- `DECODE u, b` (R110). -/
  | decode (u : Nat) (b : Byte)
  /-- `DECODE_FIND u, b` (R120). -/
  | decodeFind (u : Nat) (b : Byte)
  /-- `DECODE_COPY u, src` (R123). -/
  | decodeCopy (u : Nat) (src : List Byte)
  /-- `FRAME_HEADER` (R50): the eight header bytes of a frame with this checksum byte and this length, arriving
  from the wire at unit `u` (log entry 1). -/
  | frameHeader (u : Nat) (checksum : Byte) (length : U32)
  deriving DecidableEq, Repr

/-- The eight operations of R58, without their operands. -/
inductive Op
  | layoutSize | init | decodeReset | checksum | encode | decode | decodeFind | decodeCopy
  deriving DecidableEq, Repr

/-- The operand that travels beside an operation code (R61). -/
inductive Operand
  | none
  | byte (b : Byte)
  | seq (s : List Byte)
  deriving DecidableEq, Repr

/-- A command (R57): a 4-bit code, and beside it the unit index (absent for the two operations that touch no
unit) and the operand. -/
structure Command where
  op      : BitVec 4
  unit    : Option Nat
  operand : Operand
  deriving DecidableEq, Repr

/-- What the host puts on the port: a command, or wire bytes for a unit's decoder (log entries 1 and 2). -/
inductive PortItem
  | command (c : Command)
  | wire (u : Nat) (bytes : List Byte)
  deriving DecidableEq, Repr

/-- Why a port item is no instruction. -/
inductive DecodeError
  /-- The operation code is one of `1000` to `1111` (R59). -/
  | reservedCode (op : BitVec 4)
  /-- The operation acts on a unit and the command names none, or touches no unit and the command names one (R57). -/
  | wrongUnitField
  /-- The operand is not of the form the operation takes (R58). -/
  | wrongOperandForm
  /-- A byte sequence of 2^32 bytes or more (R61). -/
  | operandTooLong
  /-- Wire bytes that are not exactly eight (R50). -/
  | wrongHeaderSize
  /-- Eight wire bytes that do not begin with the marker (R50). -/
  | wrongMarker
  deriving DecidableEq, Repr

/-- The unit an instruction acts on, where it acts on one (R58). -/
def Instr.unit? : Instr → Option Nat
  | .layoutSize => none
  | .init u => some u
  | .decodeReset u => some u
  | .checksum _ => none
  | .encode u _ => some u
  | .decode u _ => some u
  | .decodeFind u _ => some u
  | .decodeCopy u _ => some u
  | .frameHeader u _ _ => some u

/-- The unit a port item names, where it names one. -/
def PortItem.unit? : PortItem → Option Nat
  | .command c => c.unit
  | .wire u _ => some u

end Sys2Proof
end

