-- ==== Sys2Proof/Config.lean ====
section
/-! DEFINITION. The open values. The parameters `ILS` and `CAP[u]` of 00_scope.md R5 travel in the state, so a
statement about every state holds for every value of them; here stand the values `State.reset` starts with, and the
free values of the registers a failed `INIT` leaves unspecified. -/

namespace Sys2Proof

/-- `ILS` at `State.reset`: the illustration of 95_test_vectors.md, not the source's (log entry 4). -/
def Config.resetIls : Nat := 32

/-- `CAP[u]` at `State.reset`, one entry per unit: the illustration of 95_test_vectors.md (log entry 4). -/
def Config.resetCaps : List U32 := [96, 96]

/-- An unspecified byte register after a failed `INIT` (R21, R72; log entry 7). Nothing is known of it. -/
opaque Config.freeByte (unit draw register : Nat) : Byte

/-- An unspecified 32-bit register after a failed `INIT` (R21, R72; log entry 7). Nothing is known of it. -/
opaque Config.freeU32 (unit draw register : Nat) : U32

/-- An unspecified `DS.state` after a failed `INIT` (R21, R72; log entry 7). Nothing is known of it. -/
opaque Config.freeRxState (unit draw : Nat) : RxState

end Sys2Proof
end

