-- ==== Sys2Proof/WellFormed.lean ====
section
/-! DEFINITION. Which instructions are well formed: a byte sequence operand has fewer than 2^32 bytes
(30_encoding.md R61). A unit index is checked against the machine's units when the instruction runs (R59), since
the number of units is a parameter of the machine. -/

namespace Sys2Proof

/-- The number of lengths a byte sequence operand may have (R61). -/
def seqBound : Nat := 4294967296

/-- R61: `0 <= len < 2^32`. -/
abbrev seqOk (s : List Byte) : Prop := s.length < seqBound

/-- Well-formedness of an instruction's operands (R61). -/
def Instr.wf : Instr → Bool
  | .layoutSize => true
  | .init _ => true
  | .decodeReset _ => true
  | .checksum s => decide (seqOk s)
  | .encode _ p => decide (seqOk p)
  | .decode _ _ => true
  | .decodeFind _ _ => true
  | .decodeCopy _ src => decide (seqOk src)
  | .frameHeader _ _ _ => true

end Sys2Proof
end

