-- ==== Sys2Proof/Decode.lean ====
section
/-! DEFINITION. Encodings (30_encoding.md): the byte order of the length field, the wire frame, the codes of
`DS.state`, the decoder of port items, the encoder written from the same tables, and the host's reading of an
opcode-table word. -/

namespace Sys2Proof

/-! ### The length field (R33, R51) -/

/-- `zext_32(b)` (R7). -/
def zext32 (b : Byte) : U32 := b.setWidth 32

/-- `v[8k+7:8k]`: the byte of a length at wire offset `4 + k` (R33). -/
def lengthByte (v : U32) (k : Nat) : Byte := v.extractLsb' (8 * k) 8

/-- `v | (zext_32(b) << 8k)`: one byte or-ed into a length (R51, R104 to R107). -/
def orLengthByte (v : U32) (b : Byte) (k : Nat) : U32 := v ||| (zext32 b <<< (8 * k))

/-- The four length bytes in wire order, least significant first (R33). -/
def lengthBytes (n : U32) : List Byte :=
  [lengthByte n 0, lengthByte n 1, lengthByte n 2, lengthByte n 3]

/-- The length assembled from four bytes in wire order (R51). -/
def lengthOfBytes (a b d e : Byte) : U32 :=
  orLengthByte (orLengthByte (orLengthByte (orLengthByte 0 a 0) b 1) d 2) e 3

/-! ### The wire frame (R50) -/

/-- `'L'` (R50; the ASCII value is G1 of 93_implementation_defined.md). -/
def mark0 : Byte := 0x4C
/-- `'M'` (R50, G1). -/
def mark1 : Byte := 0x4D
/-- `'X'` (R50). -/
def mark2 : Byte := 0x58

/-- `HEADER_SIZE` (R5): the bytes of a frame before the payload. -/
def headerSize : Nat := 8

/-- The eight header bytes of a frame, in wire order (R50). -/
def headerBytes (checksum : Byte) (length : U32) : List Byte :=
  mark0 :: mark1 :: mark2 :: checksum :: lengthBytes length

/-! ### State codes (R55) -/

/-- The code of each value of `DS.state` in its 4-bit register (R55). -/
def RxState.code : RxState → BitVec 4
  | .head0 => 0
  | .head1 => 1
  | .head2 => 2
  | .verify => 3
  | .len0 => 4
  | .len1 => 5
  | .len2 => 6
  | .len3 => 7
  | .data => 8

/-- The state a code stands for; codes 9 to 15 stand for none (R56). -/
def RxState.ofCode? (c : BitVec 4) : Option RxState :=
  match c.toNat with
  | 0 => some .head0
  | 1 => some .head1
  | 2 => some .head2
  | 3 => some .verify
  | 4 => some .len0
  | 5 => some .len1
  | 6 => some .len2
  | 7 => some .len3
  | 8 => some .data
  | _ => none

/-! ### Operation codes (R58, R59) -/

/-- The `op` column of R58. -/
def Op.code : Op → BitVec 4
  | .layoutSize => 0b0000
  | .init => 0b0001
  | .decodeReset => 0b0010
  | .checksum => 0b0011
  | .encode => 0b0100
  | .decode => 0b0101
  | .decodeFind => 0b0110
  | .decodeCopy => 0b0111

/-- The operation of a code; `1000` to `1111` are reserved (R59). -/
def opOfCode? (c : BitVec 4) : Option Op :=
  match c.toNat with
  | 0 => some .layoutSize
  | 1 => some .init
  | 2 => some .decodeReset
  | 3 => some .checksum
  | 4 => some .encode
  | 5 => some .decode
  | 6 => some .decodeFind
  | 7 => some .decodeCopy
  | _ => none

/-! ### Decoding a port item -/

/-- The unit field of an operation that touches no unit is absent (R57). -/
def takeNoUnit (c : Command) (k : Except DecodeError Instr) : Except DecodeError Instr :=
  match c.unit with
  | none => k
  | some _ => .error .wrongUnitField

/-- The unit field of an operation on a unit is present (R57). -/
def takeUnit (c : Command) (k : Nat → Except DecodeError Instr) : Except DecodeError Instr :=
  match c.unit with
  | some u => k u
  | none => .error .wrongUnitField

/-- An operation without an operand (R58). -/
def takeNothing (c : Command) (k : Instr) : Except DecodeError Instr :=
  match c.operand with
  | .none => .ok k
  | _ => .error .wrongOperandForm

/-- An operation on one byte (R61). -/
def takeByte (c : Command) (k : Byte → Instr) : Except DecodeError Instr :=
  match c.operand with
  | .byte b => .ok (k b)
  | _ => .error .wrongOperandForm

/-- An operation on a byte sequence of fewer than 2^32 bytes (R61). -/
def takeSeq (c : Command) (k : List Byte → Instr) : Except DecodeError Instr :=
  match c.operand with
  | .seq s => if seqOk s then .ok (k s) else .error .operandTooLong
  | _ => .error .wrongOperandForm

/-- The operand form of each operation (the `operands` column of R58). -/
def decodeOp (c : Command) : Op → Except DecodeError Instr
  | .layoutSize => takeNoUnit c (takeNothing c .layoutSize)
  | .init => takeUnit c fun u => takeNothing c (.init u)
  | .decodeReset => takeUnit c fun u => takeNothing c (.decodeReset u)
  | .checksum => takeNoUnit c (takeSeq c .checksum)
  | .encode => takeUnit c fun u => takeSeq c (.encode u)
  | .decode => takeUnit c fun u => takeByte c (.decode u)
  | .decodeFind => takeUnit c fun u => takeByte c (.decodeFind u)
  | .decodeCopy => takeUnit c fun u => takeSeq c (.decodeCopy u)

/-- A command's instruction, or why it has none (R57 to R59). -/
def decodeCommand (c : Command) : Except DecodeError Instr :=
  match opOfCode? c.op with
  | some op => decodeOp c op
  | none => .error (.reservedCode c.op)

/-- Eight wire bytes that begin with the marker are a frame header (R50). -/
def decodeHeader (u : Nat) (bytes : List Byte) : Except DecodeError Instr :=
  match bytes with
  | [m0, m1, m2, c, a, b, d, e] =>
    if m0 = mark0 ∧ m1 = mark1 ∧ m2 = mark2 then .ok (.frameHeader u c (lengthOfBytes a b d e))
    else .error .wrongMarker
  | _ => .error .wrongHeaderSize

/-- The decoder: total on every port item. -/
def decode : PortItem → Except DecodeError Instr
  | .command c => decodeCommand c
  | .wire u bytes => decodeHeader u bytes

/-! ### Encoding -/

/-- The port item of an instruction, from the same tables (R50, R57, R58, R61). -/
def encode : Instr → PortItem
  | .layoutSize => .command ⟨Op.code .layoutSize, none, .none⟩
  | .init u => .command ⟨Op.code .init, some u, .none⟩
  | .decodeReset u => .command ⟨Op.code .decodeReset, some u, .none⟩
  | .checksum s => .command ⟨Op.code .checksum, none, .seq s⟩
  | .encode u p => .command ⟨Op.code .encode, some u, .seq p⟩
  | .decode u b => .command ⟨Op.code .decode, some u, .byte b⟩
  | .decodeFind u b => .command ⟨Op.code .decodeFind, some u, .byte b⟩
  | .decodeCopy u src => .command ⟨Op.code .decodeCopy, some u, .seq src⟩
  | .frameHeader u c n => .wire u (headerBytes c n)

/-! ### The opcode table's words -/

/-- The fields beside an operation code when every one of them is zero: unit 0 where a unit is named, the byte 0,
the empty sequence. -/
def zeroCommand (op : BitVec 4) : Command :=
  match op.toNat with
  | 0 => ⟨op, none, .none⟩
  | 3 => ⟨op, none, .seq []⟩
  | 4 => ⟨op, some 0, .seq []⟩
  | 5 => ⟨op, some 0, .byte 0⟩
  | 6 => ⟨op, some 0, .byte 0⟩
  | 7 => ⟨op, some 0, .seq []⟩
  | _ => ⟨op, some 0, .none⟩

/-- The first `n` bytes of a table word, the first byte the least significant. -/
def tableBytes : Nat → Nat → List Byte
  | 0, _ => []
  | n + 1, w => BitVec.ofNat 8 w :: tableBytes n (w / 256)

/-- The port item of an opcode-table word: a 4-bit operation code with zeros beside it, or wire bytes for unit 0
(log entry 3). -/
def tableItem (nbits w : Nat) : PortItem :=
  if nbits ≤ 8 ∧ w < 16 then .command (zeroCommand (BitVec.ofNat 4 w))
  else .wire 0 (tableBytes (nbits / 8) w)

/-- The instruction the decoder reads from an opcode-table word. -/
def decodeTableWord (nbits w : Nat) : Option Instr :=
  match decode (tableItem nbits w) with
  | .ok i => some i
  | .error _ => none

end Sys2Proof
end

