-- ==== Sys2Proof/Machine/State.lean ====
section
/-! DEFINITION. The state (10_state.md): per unit the register groups `HDR` and `DS`, `usable_space` and `BUF`; beside
them the parameters of 00_scope.md R5, the host's port and the results it has been given. -/

namespace Sys2Proof.Machine

/-- The register group `HDR` (R11 to R13). -/
structure Hdr where
  mark0    : Byte
  mark1    : Byte
  mark2    : Byte
  checksum : Byte
  length   : U32
  deriving DecidableEq, Repr

/-- The register group `DS` (R14, R15). -/
structure DecodeRegs where
  state       : RxState
  bytesCopied : U32
  deriving DecidableEq, Repr

/-- Whether `INIT` has been issued on a unit, and how it ended: what decides that an operation is refused (R151,
R153; log entry 6). -/
inductive InitStatus
  | powerOn | failed | ready
  deriving DecidableEq, Repr

/-- A byte memory: cells in strictly rising address order, none holding the byte 0, which an unlisted address
reads as. -/
abbrev Memory := List Host.Cell

/-- One unit (R10) with its fixed capacity `CAP[u]` (R5). -/
structure CodecUnit where
  cap         : U32
  status      : InitStatus
  hdr         : Hdr
  ds          : DecodeRegs
  usableSpace : U32
  buf         : Memory
  /-- How many `INIT`s this unit has run: the number of the next draw of free values (log entry 7). -/
  initCount   : Nat
  deriving DecidableEq, Repr

/-- `DECODE`'s result code, with `outLength` exactly when the code is 1 (R60, R61). -/
inductive DecodeResult
  | pending
  | success (outLength : U32)
  | checksumFailure
  deriving DecidableEq, Repr

/-- `DECODE_COPY`'s result code (R60). -/
inductive CopyResult
  | success
  | checksumFailure
  | mismatch
  deriving DecidableEq, Repr

/-- What an operation returns to the host (the result column of R58). -/
inductive Result
  | layoutSize (ils : Nat)
  | usable (space : U32)
  | resetDone
  | checksum (c : Byte)
  | encoded (count : U32)
  | decoded (r : DecodeResult)
  | found (length : U32)
  | copied (r : CopyResult)
  deriving DecidableEq, Repr

/-- The whole machine. -/
structure State where
  /-- `ILS` (R5). -/
  ils     : Nat
  /-- The units, `N_UNITS` of them (R5, R10). -/
  units   : List CodecUnit
  /-- What the host will issue, first item first (log entry 2). -/
  port    : List PortItem
  /-- What the host has been given, oldest first (R8). -/
  results : List Result
  deriving DecidableEq, Repr

/-- What stops the machine with a fault: nothing does, since the block has no faults (R130). -/
inductive Fault
  deriving DecidableEq, Repr

/-- What the machine refuses. -/
inductive Refusal
  /-- Raised by no arm: every instruction has its meaning. Safe. -/
  | notModelled (mnemonic : String)
  /-- Raised by the step for a port item that is no instruction: a reserved code, a wrong field (R59). Safe. -/
  | undecodable (e : DecodeError)
  /-- Raised by every operation on a unit for a unit index outside `0 .. N_UNITS-1` (R59). Safe. -/
  | noSuchUnit (u : Nat)
  /-- Raised by every operation on a unit but `INIT` before the unit's first `INIT` (R151). Safe. -/
  | unitNotInitialised
  /-- Raised by every operation on a unit but `INIT` after an `INIT` that returned 0 (R153). Safe. -/
  | unitInitFailed
  /-- Raised by `ENCODE` when the payload passes the source's guard and the frame does not fit (R87). Safe. -/
  | encodeOverrun
  /-- Raised by `DECODE`, `DECODE_COPY`, `ENCODE` and `FRAME_HEADER` for an access outside `BUF[0 .. usable_space-1]`,
  where no memory exists (R17, R30; log entry 11). Safe. No state that keeps the invariant of Safety.lean raises it
  (R36). -/
  | outsideBuffer
  deriving DecidableEq, Repr

/-- A unit at power-on (R21, R150): the spec gives no register a value, so these are the model's own (log entry 5). -/
def CodecUnit.powerOn (cap : U32) : CodecUnit where
  cap := cap
  status := .powerOn
  hdr := ⟨0, 0, 0, 0, 0⟩
  ds := ⟨.head0, 0⟩
  usableSpace := 0
  buf := []
  initCount := 0

/-- The machine at power-on for the parameters `ILS` and `CAP` (R5, R150). -/
def State.powerOn (ils : Nat) (caps : List U32) : State where
  ils := ils
  units := caps.map CodecUnit.powerOn
  port := []
  results := []

/-- The machine right after reset, with the illustration parameters of 95_test_vectors.md (log entry 4). -/
def State.reset : State := State.powerOn Config.resetIls Config.resetCaps

end Sys2Proof.Machine
end

