-- ==== Sys2Proof/Machine/Ops.lean ====
section
/-! DEFINITION. The named operations: bytes of a memory, the bounds of `BUF`, the units of the machine, delivering a
result, and the reset of `DS`. The block takes no exception and returns from none (60_exceptions.md R130), so there
is no operation for either. -/

namespace Sys2Proof.Machine

/-! ### Bytes -/

/-- The byte at an address; an unlisted address reads as 0. -/
def Memory.read : Memory → Nat → Byte
  | [], _ => 0
  | (k, v) :: m, a => if a = k then v else Memory.read m a

/-- A cell in front of a memory, left out when its byte is what an unlisted address reads as. -/
def Memory.cons (a : Nat) (b : Byte) (m : Memory) : Memory :=
  if b = 0 then m else (a, b) :: m

/-- One byte written. -/
def Memory.write : Memory → Nat → Byte → Memory
  | [], a, b => Memory.cons a b []
  | (k, v) :: m, a, b =>
    if a < k then Memory.cons a b ((k, v) :: m)
    else if a = k then Memory.cons a b m
    else (k, v) :: Memory.write m a b

/-- `MemRead(off, n)` (R7): `n` bytes from an offset. -/
def Memory.readSeq (m : Memory) (off : Nat) : Nat → List Byte
  | 0 => []
  | n + 1 => Memory.read m off :: Memory.readSeq m (off + 1) n

/-- `MemWrite(off, n, s)` (R7): the bytes of a sequence from an offset, the first at the lowest. -/
def Memory.writeSeq (m : Memory) (off : Nat) : List Byte → Memory
  | [] => m
  | b :: bs => Memory.writeSeq (Memory.write m off b) (off + 1) bs

/-- The canonical form: addresses strictly rising, no cell holding 0. -/
abbrev Memory.wf (m : Memory) : Prop :=
  m.Pairwise (fun x y => x.1 < y.1) ∧ ∀ c ∈ m, c.2 ≠ 0

/-! ### A unit's buffer -/

/-- `BUF` holds the offsets `0 .. usable_space-1` and no other (R17, R30). -/
abbrev CodecUnit.inBuf (x : CodecUnit) (off n : Nat) : Prop := off + n ≤ x.usableSpace.toNat

/-- The bytes of `BUF` from an offset, where they all exist. -/
def CodecUnit.load (x : CodecUnit) (off n : Nat) : Option (List Byte) :=
  if x.inBuf off n then some (Memory.readSeq x.buf off n) else none

/-- The unit with bytes stored in `BUF` from an offset, where they all exist. -/
def CodecUnit.store (x : CodecUnit) (off : Nat) (bs : List Byte) : Option CodecUnit :=
  if x.inBuf off bs.length then some { x with buf := Memory.writeSeq x.buf off bs } else none

/-- The two writes of `DECODE_RESET`, also made when a payload completes (R73, R110, R123). -/
def CodecUnit.resetDs (x : CodecUnit) : CodecUnit := { x with ds := ⟨.head0, 0⟩ }

/-! ### The units of the machine -/

/-- Unit `u` replaced. -/
def State.setUnit (s : State) (u : Nat) (x : CodecUnit) : State := { s with units := s.units.set u x }

/-- A result given to the host (R8). -/
def State.deliver (s : State) (r : Result) : State := { s with results := s.results ++ [r] }

/-- The outcome of an operation on one unit: the unit afterwards and the result, or a stop. -/
abbrev UnitOutcome := Host.Outcome (CodecUnit × Result) Fault Refusal

/-- What an operation on a unit leaves: the unit put back and the result delivered. -/
def State.finish (s : State) (u : Nat) : UnitOutcome → Host.Outcome State Fault Refusal
  | .next (x, r) => .next ((s.setUnit u x).deliver r)
  | .fault f => .fault f
  | .refused r => .refused r

/-- An operation on unit `u`, whatever its status: refused where the machine has no unit `u` (R59). -/
def onUnit (u : Nat) (f : CodecUnit → UnitOutcome) (s : State) : Host.Outcome State Fault Refusal :=
  match s.units[u]? with
  | none => .refused (.noSuchUnit u)
  | some x => s.finish u (f x)

/-- An operation that needs an initialised unit: refused before a successful `INIT` (R151) and after a failed one
(R153). -/
def ifReady (f : CodecUnit → UnitOutcome) (x : CodecUnit) : UnitOutcome :=
  match x.status with
  | .powerOn => .refused .unitNotInitialised
  | .failed => .refused .unitInitFailed
  | .ready => f x

/-- An operation on unit `u` that needs it initialised. -/
def onReady (u : Nat) (f : CodecUnit → UnitOutcome) (s : State) : Host.Outcome State Fault Refusal :=
  onUnit u (ifReady f) s

/-- One outcome after another: the second runs from the state the first leaves. -/
def andThen (o : Host.Outcome State Fault Refusal) (f : State → Host.Outcome State Fault Refusal) :
    Host.Outcome State Fault Refusal :=
  match o with
  | .next s => f s
  | .fault e => .fault e
  | .refused e => .refused e

/-! ### The host's view -/

/-- The host's read of `BUF` between operations (R8, R41): bytes of an initialised unit's usable region. -/
def State.hostRead (s : State) (u off n : Nat) : Option (List Byte) :=
  match s.units[u]? with
  | none => none
  | some x =>
    match x.status with
    | .powerOn => none
    | .failed => none
    | .ready => x.load off n

end Sys2Proof.Machine
end

