-- ==== Sys2Proof/Machine/Operands.lean ====
section
/-! DEFINITION. The operand forms (30_encoding.md R61) as the meanings use them. A byte and a unit index need no
preparation; a byte sequence has a length; a payload becomes a frame (R50, R31). -/

namespace Sys2Proof.Machine

/-- `len(p)` as a 32-bit value; exact for every well-formed operand (R61). -/
def seqLength (p : List Byte) : U32 := BitVec.ofNat 32 p.length

/-- The bytes of a frame: the eight header bytes, then the payload (R50, R31). -/
def frameOf (c : Byte) (p : List Byte) : List Byte := headerBytes c (seqLength p) ++ p

/-- `HDR` describing a frame with this checksum and length (R85). -/
def hdrOfFrame (c : Byte) (n : U32) : Hdr := ⟨mark0, mark1, mark2, c, n⟩

end Sys2Proof.Machine
end

