-- ==== Sys2Proof/Machine/Flags.lean ====
section
/-! DEFINITION. The block has no flags (10_state.md R24). Its outcomes come from the tests below: the checksum and its
comparison, the two length guards, the completion test, and the bus encoding of the results (30_encoding.md R60). -/

namespace Sys2Proof.Machine

/-- The sum of a byte sequence, exact. -/
def byteSum : List Byte → Nat
  | [] => 0
  | b :: bs => b.toNat + byteSum bs

/-- `CKS_BIAS` (R5): `1 + ASCII('X')`. -/
def checksumBias : Nat := 1 + 88

/-- `checksum(s)` (R80). -/
def checksum (s : List Byte) : Byte := BitVec.ofNat 8 (byteSum s + checksumBias)

/-- `CAP >= ILS + 1`: what `INIT` demands (R71). -/
abbrev capacityOk (cap : U32) (ils : Nat) : Prop := ils + 1 ≤ cap.toNat

/-- `n > usable_space`: the payload is too long to encode (R86). -/
abbrev payloadTooLong (x : CodecUnit) (n : Nat) : Prop := x.usableSpace.toNat < n

/-- `n + 8 > usable_space`: the frame does not fit (R87). -/
abbrev frameOverruns (x : CodecUnit) (n : Nat) : Prop := x.usableSpace.toNat < n + headerSize

/-- A length is at most `usable_space`: the bound tested in `LEN3` (R107). -/
abbrev lengthFits (x : CodecUnit) (n : U32) : Prop := n.toNat ≤ x.usableSpace.toNat

/-- `DS.bytes_copied < HDR.length`: the payload is incomplete (R112). -/
abbrev payloadIncomplete (x : CodecUnit) : Prop := x.ds.bytesCopied.toNat < x.hdr.length.toNat

/-- `DECODE_COPY`'s two -2 conditions (R123). -/
abbrev copyMismatch (x : CodecUnit) (n : Nat) : Prop := x.ds.state ≠ .data ∨ n ≠ x.hdr.length.toNat

/-- `DECODE`'s result for a completed payload (R110). -/
def decodeVerdict (x : CodecUnit) (payload : List Byte) : DecodeResult :=
  if checksum payload = x.hdr.checksum then .success x.hdr.length else .checksumFailure

/-- `DECODE_COPY`'s result for a copied payload (R123). -/
def copyVerdict (x : CodecUnit) (payload : List Byte) : CopyResult :=
  if checksum payload = x.hdr.checksum then .success else .checksumFailure

/-- The 32-bit two's complement code of `DECODE` (R60). -/
def DecodeResult.bus : DecodeResult → U32
  | .pending => 0
  | .success _ => 1
  | .checksumFailure => BitVec.ofInt 32 (-1)

/-- `outLength`, delivered only with code 1 (R61). -/
def DecodeResult.outLength : DecodeResult → Option U32
  | .pending => none
  | .success n => some n
  | .checksumFailure => none

/-- The 32-bit two's complement code of `DECODE_COPY` (R60). -/
def CopyResult.bus : CopyResult → U32
  | .success => 0
  | .checksumFailure => BitVec.ofInt 32 (-1)
  | .mismatch => BitVec.ofInt 32 (-2)

/-- The result bus (R60), for the operations the table of R60 lists. -/
def Result.bus : Result → Option U32
  | .layoutSize _ => none
  | .usable n => some n
  | .resetDone => none
  | .checksum _ => none
  | .encoded n => some n
  | .decoded r => some r.bus
  | .found n => some n
  | .copied r => some r.bus

end Sys2Proof.Machine
end

