-- ==== Sys2Proof/Machine/HeaderFsm.lean ====
section
/-! DEFINITION. The header state machine `hdr_step` (43_incremental_decoder.md part 1), shared by `DECODE` and
`DECODE_FIND`. -/

namespace Sys2Proof.Machine

/-- `head0_eval(b)` (R100). -/
def head0Eval (b : Byte) (x : CodecUnit) : CodecUnit :=
  { x with
    hdr := { x.hdr with mark0 := b, length := 0 }
    ds := ⟨if b = mark0 then .head1 else .head0, 0⟩ }

/-- State `HEAD1` (R101): recorded, compared, and on a mismatch examined again as a first marker byte (R108). -/
def head1Eval (b : Byte) (x : CodecUnit) : CodecUnit :=
  if b = mark1 then { x with hdr := { x.hdr with mark1 := b }, ds := { x.ds with state := .head2 } }
  else head0Eval b { x with hdr := { x.hdr with mark1 := b } }

/-- State `HEAD2` (R102): recorded, compared, and on a mismatch examined again as a first marker byte (R108). -/
def head2Eval (b : Byte) (x : CodecUnit) : CodecUnit :=
  if b = mark2 then { x with hdr := { x.hdr with mark2 := b }, ds := { x.ds with state := .verify } }
  else head0Eval b { x with hdr := { x.hdr with mark2 := b } }

/-- State `VERIFY` (R103). -/
def verifyEval (b : Byte) (x : CodecUnit) : CodecUnit :=
  { x with hdr := { x.hdr with checksum := b }, ds := { x.ds with state := .len0 } }

/-- A length byte or-ed into `HDR.length` at place `k` (R104 to R107), the state then being `next`. -/
def lengthEval (k : Nat) (next : RxState) (b : Byte) (x : CodecUnit) : CodecUnit :=
  { x with
    hdr := { x.hdr with length := orLengthByte x.hdr.length b k }
    ds := { x.ds with state := next } }

/-- Where `LEN3` goes (R107): the bound is tested on the completed length. -/
def len3Next (b : Byte) (x : CodecUnit) : RxState :=
  if lengthFits x (orLengthByte x.hdr.length b 3) then .data else .head0

/-- State `LEN3` (R107): the last length byte, then the bound; an oversize byte is not examined again (D12). -/
def len3Eval (b : Byte) (x : CodecUnit) : CodecUnit := lengthEval 3 (len3Next b x) b x

/-- `hdr_step(b)` (R109): one rule, chosen by `DS.state`. No operation calls it in `DATA`. -/
def hdrStep (b : Byte) (x : CodecUnit) : CodecUnit :=
  match x.ds.state with
  | .head0 => head0Eval b x
  | .head1 => head1Eval b x
  | .head2 => head2Eval b x
  | .verify => verifyEval b x
  | .len0 => lengthEval 0 .len1 b x
  | .len1 => lengthEval 1 .len2 b x
  | .len2 => lengthEval 2 .len3 b x
  | .len3 => len3Eval b x
  | .data => x

end Sys2Proof.Machine
end

