-- ==== Sys2Proof/Machine/Bulk.lean ====
section
/-! DEFINITION. `DECODE_FIND` and `DECODE_COPY` (44_bulk_decoder.md). -/

namespace Sys2Proof.Machine

/-- What `DECODE_FIND` reports: `HDR.length` in `DATA`, 0 otherwise (R120). -/
def foundLength (x : CodecUnit) : U32 := if x.ds.state = .data then x.hdr.length else 0

/-- The unit `DECODE_FIND` leaves: `hdr_step` unless the state is `DATA` (R120, R121). -/
def findUnit (b : Byte) (x : CodecUnit) : CodecUnit := if x.ds.state = .data then x else hdrStep b x

/-- `DECODE_FIND u, b` (R120). -/
def execDecodeFind (u : Nat) (b : Byte) (s : State) : Host.Outcome State Fault Refusal :=
  onReady u (fun x => .next (findUnit b x, .found (foundLength (findUnit b x)))) s

/-- `DECODE_COPY` on one unit (R123). -/
def copyUnit (src : List Byte) (x : CodecUnit) : UnitOutcome :=
  if copyMismatch x src.length then .next (x, .copied .mismatch)
  else
    match x.resetDs.store 0 src with
    | none => .refused .outsideBuffer
    | some y =>
      match y.load 0 y.hdr.length.toNat with
      | none => .refused .outsideBuffer
      | some payload => .next (y, .copied (copyVerdict y payload))

/-- `DECODE_COPY u, src` (R123). -/
def execDecodeCopy (u : Nat) (src : List Byte) (s : State) : Host.Outcome State Fault Refusal :=
  onReady u (copyUnit src) s

end Sys2Proof.Machine
end

