-- ==== Sys2Proof/Machine/ChecksumOp.lean ====
section
/-! DEFINITION. `CHECKSUM` (41_checksum.md). -/

namespace Sys2Proof.Machine

/-- `CHECKSUM s` (R81). -/
def execChecksum (bs : List Byte) (s : State) : Host.Outcome State Fault Refusal :=
  .next (s.deliver (.checksum (checksum bs)))

end Sys2Proof.Machine
end

