-- ==== Sys2Proof/Machine/Encoder.lean ====
section
/-! DEFINITION. `ENCODE` (42_encoder.md). -/

namespace Sys2Proof.Machine

/-- `ENCODE` on one unit (R85), its failure (R86) and its refused window (R87). -/
def encodeUnit (p : List Byte) (x : CodecUnit) : UnitOutcome :=
  if payloadTooLong x p.length then .next (x, .encoded 0)
  else if frameOverruns x p.length then .refused .encodeOverrun
  else
    match x.store 0 (frameOf (checksum p) p) with
    | none => .refused .outsideBuffer
    | some y =>
      .next ({ y with hdr := hdrOfFrame (checksum p) (seqLength p) },
        .encoded (BitVec.ofNat 32 (p.length + headerSize)))

/-- `ENCODE u, p` (R85). -/
def execEncode (u : Nat) (p : List Byte) (s : State) : Host.Outcome State Fault Refusal :=
  onReady u (encodeUnit p) s

end Sys2Proof.Machine
end

