-- ==== Sys2Proof/Machine/Incremental.lean ====
section
/-! DEFINITION. `DECODE` (43_incremental_decoder.md part 2). -/

namespace Sys2Proof.Machine

/-- The end of a payload (R110): `DS` reset, then the checksum over `BUF[0 .. HDR.length-1]` compared. -/
def completePayload (x : CodecUnit) : UnitOutcome :=
  match x.resetDs.load 0 x.hdr.length.toNat with
  | none => .refused .outsideBuffer
  | some payload => .next (x.resetDs, .decoded (decodeVerdict x payload))

/-- The unit after a payload byte is counted (R110). -/
def CodecUnit.countByte (x : CodecUnit) : CodecUnit :=
  { x with ds := { x.ds with bytesCopied := x.ds.bytesCopied + 1 } }

/-- A payload byte (R110): appended, counted, and the payload completed if it is the last (R112). -/
def payloadByte (b : Byte) (x : CodecUnit) : UnitOutcome :=
  match x.store x.ds.bytesCopied.toNat [b] with
  | none => .refused .outsideBuffer
  | some y =>
    if payloadIncomplete y.countByte then .next (y.countByte, .decoded .pending)
    else completePayload y.countByte

/-- `DECODE` on one unit (R110). -/
def decodeUnit (b : Byte) (x : CodecUnit) : UnitOutcome :=
  if x.ds.state = .data then payloadByte b x else .next (hdrStep b x, .decoded .pending)

/-- `DECODE u, b` (R110). -/
def execDecode (u : Nat) (b : Byte) (s : State) : Host.Outcome State Fault Refusal :=
  onReady u (decodeUnit b) s

end Sys2Proof.Machine
end

