-- ==== Sys2Proof/Machine/Lifecycle.lean ====
section
/-! DEFINITION. `LAYOUT_SIZE`, `INIT` and `DECODE_RESET` (40_buffer_lifecycle.md). -/

namespace Sys2Proof.Machine

/-- `LAYOUT_SIZE` (R70). -/
def execLayoutSize (s : State) : Host.Outcome State Fault Refusal :=
  .next (s.deliver (.layoutSize s.ils))

/-- A unit after a successful `INIT` (R71): `BUF` is all zeros, which is the memory that lists nothing. -/
def CodecUnit.initialised (x : CodecUnit) (ils : Nat) : CodecUnit :=
  { x with
    status := .ready
    hdr := ⟨0, 0, 0, 0, 0⟩
    ds := ⟨.head0, 0⟩
    usableSpace := BitVec.ofNat 32 (x.cap.toNat - ils)
    buf := []
    initCount := x.initCount + 1 }

/-- A unit `u` after a failed `INIT` (R72): `usable_space` is 0, there is no buffer, and every other register holds
a free value (log entry 7). -/
def CodecUnit.initFailed (x : CodecUnit) (u : Nat) : CodecUnit :=
  { x with
    status := .failed
    hdr := ⟨Config.freeByte u x.initCount 0, Config.freeByte u x.initCount 1, Config.freeByte u x.initCount 2,
      Config.freeByte u x.initCount 3, Config.freeU32 u x.initCount 0⟩
    ds := ⟨Config.freeRxState u x.initCount, Config.freeU32 u x.initCount 1⟩
    usableSpace := 0
    buf := []
    initCount := x.initCount + 1 }

/-- The unit `INIT u` leaves (R71, R72). -/
def initUnit (ils u : Nat) (x : CodecUnit) : CodecUnit :=
  if capacityOk x.cap ils then x.initialised ils else x.initFailed u

/-- `INIT u` (R71, R72): the result is the new `usable_space`, 0 on failure. -/
def execInit (u : Nat) (s : State) : Host.Outcome State Fault Refusal :=
  onUnit u (fun x => .next (initUnit s.ils u x, .usable (initUnit s.ils u x).usableSpace)) s

/-- `DECODE_RESET u` (R73). -/
def execDecodeReset (u : Nat) (s : State) : Host.Outcome State Fault Refusal :=
  onReady u (fun x => .next (x.resetDs, .resetDone)) s

end Sys2Proof.Machine
end

