-- ==== Sys2Proof/Machine/Wire.lean ====
section
/-! DEFINITION. `FRAME_HEADER`: the eight header bytes of a frame (30_encoding.md R50) arriving at a unit's incremental
decoder, one `DECODE` a byte (R63, R110; log entry 1). -/

namespace Sys2Proof.Machine

/-- Bytes of the wire given to `DECODE` on unit `u` in order (R63). -/
def decodeBytes (u : Nat) : List Byte → State → Host.Outcome State Fault Refusal
  | [], s => .next s
  | b :: bs, s => andThen (execDecode u b s) (decodeBytes u bs)

/-- `FRAME_HEADER` at unit `u` (R50, R110). -/
def execFrameHeader (u : Nat) (c : Byte) (n : U32) (s : State) : Host.Outcome State Fault Refusal :=
  decodeBytes u (headerBytes c n) s

end Sys2Proof.Machine
end

