-- ==== Sys2Proof/Machine/Dispatch.lean ====
section
/-! DEFINITION. One arm per instruction. -/

namespace Sys2Proof.Machine

def exec (i : Instr) (s : State) : Host.Outcome State Fault Refusal :=
  match i with
  | .layoutSize => Sys2Proof.Machine.execLayoutSize s
  | .init u => Sys2Proof.Machine.execInit u s
  | .decodeReset u => Sys2Proof.Machine.execDecodeReset u s
  | .checksum bs => Sys2Proof.Machine.execChecksum bs s
  | .encode u p => Sys2Proof.Machine.execEncode u p s
  | .decode u b => Sys2Proof.Machine.execDecode u b s
  | .decodeFind u b => Sys2Proof.Machine.execDecodeFind u b s
  | .decodeCopy u src => Sys2Proof.Machine.execDecodeCopy u src s
  | .frameHeader u c n => Sys2Proof.Machine.execFrameHeader u c n s

end Sys2Proof.Machine
end

