-- ==== Sys2Proof/Machine/Sequence.lean ====
section
/-! DEFINITION. Sequences of operations: the fold of the rules over them in order (20_memory.md R38), and the
pseudo-operations of 30_encoding.md R63; before them, the running of one port item. -/

namespace Sys2Proof.Machine

/-- The instruction a port item stands for runs on the state without that item. -/
def issue (item : PortItem) (s : State) : Host.Outcome State Fault Refusal :=
  match decode item with
  | .ok i => exec i s
  | .error e => .refused (.undecodable e)

/-- The state after a sequence of operations is the fold of the operation rules over the sequence (R38). -/
def execAll : List Instr → State → Host.Outcome State Fault Refusal
  | [], s => .next s
  | i :: is, s => andThen (exec i s) (execAll is)

/-- `FEED u, bytes` (R63). -/
def feed (u : Nat) (bytes : List Byte) : List Instr := bytes.map (.decode u)

/-- `FEEDF u, bytes` (R63). -/
def feedf (u : Nat) (bytes : List Byte) : List Instr := bytes.map (.decodeFind u)

/-- `XFER u -> v, c` (R63): a host read of `c` bytes of unit `u`, fed to unit `v`. -/
def xfer (s : State) (u v c : Nat) : Option (List Instr) :=
  match s.hostRead u 0 c with
  | none => none
  | some bytes => some (feed v bytes)

end Sys2Proof.Machine
end

