-- ==== Sys2Proof/Machine/Step.lean ====
section
/-! DEFINITION. One step: the operation at the head of the port, run to completion (00_scope.md R6). With nothing on
the port nothing happens: the block never acts on its own. -/

namespace Sys2Proof.Machine

/-- One step (R6). -/
def step (s : State) : Host.Outcome State Fault Refusal :=
  match s.port with
  | [] => .next s
  | item :: rest => issue item { s with port := rest }

/-- An opcode-table word put at the head of the port, where the step takes its next instruction. -/
def State.withFetchWord (s : State) (nbits w : Nat) : State :=
  { s with port := tableItem nbits w :: s.port }

end Sys2Proof.Machine
end

