-- ==== Sys2Proof/Safety.lean ====
section
/-! DEFINITION. What a safe state is: the invariant of the model that every step keeps, and the stronger invariant of
10_state.md R20, which an `ENCODE` on a unit in mid-decode breaks. -/

namespace Sys2Proof.Machine

/-- What holds of an initialised unit after every operation (R16, R17, R20 items 1 and 2, R36): the usable space is
`CAP - ILS` and not 0, no cell of `BUF` lies outside it, `DS.bytes_copied` is 0 outside `DATA`, and in `DATA` the
length fits the buffer and the next payload byte has a place in it. -/
abbrev CodecUnit.ReadyOk (x : CodecUnit) (ils : Nat) : Prop :=
  x.usableSpace.toNat + ils = x.cap.toNat ∧ 0 < x.usableSpace.toNat ∧
  (∀ c ∈ x.buf, c.1 < x.usableSpace.toNat) ∧
  (x.ds.state ≠ .data → x.ds.bytesCopied = 0) ∧
  (x.ds.state = .data → lengthFits x x.hdr.length ∧ x.ds.bytesCopied.toNat < x.usableSpace.toNat)

/-- What holds of a unit after every operation: `BUF` in canonical form, and by how its last `INIT` ended. -/
abbrev CodecUnit.Sound (x : CodecUnit) (ils : Nat) : Prop :=
  Memory.wf x.buf ∧
  (x.status = .ready → x.ReadyOk ils) ∧
  (x.status = .failed → x.cap.toNat ≤ ils ∧ x.usableSpace = 0 ∧ x.buf = []) ∧
  (x.status = .powerOn → x.buf = [])

/-- The machine's invariant: at least one unit (R5), and every unit sound. -/
abbrev State.Sound (s : State) : Prop :=
  0 < s.units.length ∧ ∀ x ∈ s.units, x.Sound s.ils

/-- `DS.state` stands after the first marker byte (R20 item 5). -/
abbrev pastMark0 (r : RxState) : Prop := r ≠ .head0
/-- `DS.state` stands after the second marker byte (R20 item 5). -/
abbrev pastMark1 (r : RxState) : Prop := r ≠ .head0 ∧ r ≠ .head1
/-- `DS.state` stands after the third marker byte (R20 item 5). -/
abbrev pastMark2 (r : RxState) : Prop := r ≠ .head0 ∧ r ≠ .head1 ∧ r ≠ .head2

/-- The five items of R20 for an initialised unit. -/
abbrev CodecUnit.HeaderOk (x : CodecUnit) : Prop :=
  (x.ds.state ≠ .data → x.ds.bytesCopied = 0) ∧
  (x.ds.state = .data → lengthFits x x.hdr.length) ∧
  (x.ds.state = .data → x.ds.bytesCopied.toNat < max x.hdr.length.toNat 1) ∧
  ((x.ds.state = .len1 → x.hdr.length.toNat < 256) ∧
    (x.ds.state = .len2 → x.hdr.length.toNat < 65536) ∧
    (x.ds.state = .len3 → x.hdr.length.toNat < 16777216) ∧
    (x.ds.state = .head1 ∨ x.ds.state = .head2 ∨ x.ds.state = .verify ∨ x.ds.state = .len0 → x.hdr.length = 0)) ∧
  ((pastMark0 x.ds.state → x.hdr.mark0 = mark0) ∧
    (pastMark1 x.ds.state → x.hdr.mark1 = mark1) ∧
    (pastMark2 x.ds.state → x.hdr.mark2 = mark2))

/-- R20 for every initialised unit of the machine. -/
abbrev State.HeadersOk (s : State) : Prop :=
  ∀ x ∈ s.units, x.status = .ready → x.HeaderOk

/-- R155: the operation is no `ENCODE` on a unit that is in mid-decode. -/
abbrev State.oneDirection (s : State) (i : Instr) : Prop :=
  ∀ u p x, i = .encode u p → s.units[u]? = some x → x.ds.state = .head0

/-- The unit an operation needs is there and initialised (R59, R151, R153). -/
abbrev State.isReady (s : State) (u : Nat) (x : CodecUnit) : Prop :=
  s.units[u]? = some x ∧ x.status = .ready

/-- One header byte, by either operation: the unit ends as `y`, `DECODE` returns 0 and `DECODE_FIND` returns the
length if the state is now `DATA` and 0 otherwise (R110, R120). -/
abbrev State.headerStep (s : State) (u : Nat) (b : Byte) (y : CodecUnit) : Prop :=
  exec (.decode u b) s = .next ((s.setUnit u y).deliver (.decoded .pending)) ∧
  exec (.decodeFind u b) s =
    .next ((s.setUnit u y).deliver (.found (if y.ds.state = .data then y.hdr.length else 0)))

/-- The unit is searching for a marker: the next byte is a candidate marker byte (R14). -/
abbrev CodecUnit.searching (x : CodecUnit) : Prop :=
  x.ds.state = .head0 ∨ x.ds.state = .head1 ∨ x.ds.state = .head2

/-- A unit with its three marker registers blanked (R11). -/
def CodecUnit.eraseMarks (x : CodecUnit) : CodecUnit :=
  { x with hdr := { x.hdr with mark0 := 0, mark1 := 0, mark2 := 0 } }

/-- The machine with every marker register blanked (R11). -/
def State.eraseMarks (s : State) : State := { s with units := s.units.map CodecUnit.eraseMarks }

/-- A unit as the host may rely on it: the registers and `BUF` of a unit no `INIT` has made ready hold nothing
(R21). -/
def CodecUnit.specified (x : CodecUnit) : CodecUnit :=
  match x.status with
  | .ready => x
  | .powerOn => { x with hdr := ⟨0, 0, 0, 0, 0⟩, ds := ⟨.head0, 0⟩, usableSpace := 0, buf := [] }
  | .failed => { x with hdr := ⟨0, 0, 0, 0, 0⟩, ds := ⟨.head0, 0⟩, usableSpace := 0, buf := [] }

/-- The machine as the host may rely on it (R21). -/
def State.specified (s : State) : State := { s with units := s.units.map CodecUnit.specified }

/-- Two outcomes that a view of the state does not tell apart: both go on to states with the same view, or both stop
for the same reason. -/
def sameView (view : State → State) (o o' : Host.Outcome State Fault Refusal) : Prop :=
  match o, o' with
  | .next t, .next t' => view t = view t'
  | .fault f, .fault f' => f = f'
  | .refused r, .refused r' => r = r'
  | _, _ => False

end Sys2Proof.Machine
end

