-- ==== Sys2Proof/Certificates/Slice0/Obligations.lean ====
section
/-! DEFINITION. What the provers are asked to settle. The rules are those of spec/; the log entries those of
notes/assumptions. -/

open Sys2Proof Sys2Proof.Machine

/-! ### Encodings -/

/-- R50, R57, R58, R61: a well-formed instruction is read back from its port item, every operand at every value. The
operation codes are decision D6 (log entry 21), the port item is the model's form (log entry 2) and the wire item of a
frame header is log entry 1. -/
def Obligations.DecodeOfEncodeIsTheInstruction : Prop :=
  ∀ i : Instr, i.wf = true → decode (encode i) = .ok i

/-- A port item that decodes is the one encoding of its instruction, which is well formed (R61). The forms of operands
and of the unit field are those of R57 and R58, but that nothing else decodes is the model's choice: stray unit fields
and wrong operands are refused (log entry 2), a frame header is a wire item (log entry 1), and the codes are decision
D6 (log entry 21). -/
def Obligations.EncodeOfDecodeIsTheItem : Prop :=
  ∀ (w : PortItem) (i : Instr), decode w = .ok i → encode i = w ∧ i.wf = true

/-- Sample items written out bit by bit decode to the instruction they stand for. The eight operation codes are
decision D6 (log entry 21), and that the wire bytes of R50 read as a frame header at a named unit is the model's
choice (log entry 1). -/
def Obligations.SampleItemsDecode : Prop :=
  decode (.command ⟨0b0000, none, .none⟩) = .ok .layoutSize ∧
  decode (.command ⟨0b0001, some 1, .none⟩) = .ok (.init 1) ∧
  decode (.command ⟨0b0010, some 0, .none⟩) = .ok (.decodeReset 0) ∧
  decode (.command ⟨0b0011, none, .seq [0x41, 0x42, 0x43]⟩) = .ok (.checksum [0x41, 0x42, 0x43]) ∧
  decode (.command ⟨0b0100, some 0, .seq [0x41, 0x42, 0x43]⟩) = .ok (.encode 0 [0x41, 0x42, 0x43]) ∧
  decode (.command ⟨0b0101, some 1, .byte 0x4C⟩) = .ok (.decode 1 0x4C) ∧
  decode (.command ⟨0b0110, some 1, .byte 0x4C⟩) = .ok (.decodeFind 1 0x4C) ∧
  decode (.command ⟨0b0111, some 1, .seq [0x41]⟩) = .ok (.decodeCopy 1 [0x41]) ∧
  decode (.wire 1 [0b01001100, 0b01001101, 0b01011000, 0x1F, 0x03, 0x00, 0x00, 0x00]) =
    .ok (.frameHeader 1 0x1F 3)

/-- R51: wire offset `4 + k` carries the length's bits `8k+7 .. 8k`; the decoder's four or-and-shift steps from a
cleared `HDR.length` give `b0 + 256*b1 + 65536*b2 + 16777216*b3`, and undo the encoder's split. -/
def Obligations.LengthFieldIsLittleEndian : Prop :=
  (∀ (c : Byte) (n : U32) (k : Nat), k < 4 →
    (headerBytes c n)[4 + k]? = some (BitVec.ofNat 8 (n.toNat / 256 ^ k))) ∧
  (∀ (x : CodecUnit) (b0 b1 b2 b3 : Byte), x.hdr.length = 0 → x.ds.state = .len0 →
    (hdrStep b3 (hdrStep b2 (hdrStep b1 (hdrStep b0 x)))).hdr.length.toNat =
      b0.toNat + 256 * b1.toNat + 65536 * b2.toNat + 16777216 * b3.toNat) ∧
  (∀ (x : CodecUnit) (n : U32) (b0 b1 b2 b3 : Byte), x.hdr.length = 0 → x.ds.state = .len0 →
    lengthBytes n = [b0, b1, b2, b3] →
    (hdrStep b3 (hdrStep b2 (hdrStep b1 (hdrStep b0 x)))).hdr.length = n)

/-- R55, R56: the nine state codes are pairwise different, and the codes 9 to 15 stand for no state. The codes are
decision D5 (log entry 21). -/
def Obligations.StateCodesNameNineStates : Prop :=
  (∀ r : RxState, RxState.ofCode? r.code = some r) ∧ (∀ c : BitVec 4, 9 ≤ c.toNat → RxState.ofCode? c = none)

/-! ### The step -/

/-- R6: the item at the head of the port, when it decodes to an instruction, runs as that instruction on the state
without that item. The port is the model's own (log entry 2). -/
def Obligations.StepRunsTheDecodedInstruction : Prop :=
  ∀ (s : State) (item : PortItem) (rest : List PortItem) (i : Instr),
    s.port = item :: rest → decode item = .ok i → step s = exec i { s with port := rest }

/-- R6: with nothing issued nothing changes. That a step then leaves the state as it is, is the model's choice (log
entry 2). -/
def Obligations.NothingIssuedNothingChanges : Prop :=
  ∀ s : State, s.port = [] → step s = .next s

/-- R59: a reserved operation code and a unit index outside `0 .. N_UNITS-1` are refused: no next state, no result.
The codes, and refusing them, are decision D6 (log entry 21). -/
def Obligations.ReservedCodesAndAbsentUnitsRefused : Prop :=
  (∀ (s : State) (c : Command) (rest : List PortItem), s.port = .command c :: rest → 8 ≤ c.op.toNat →
    step s = .refused (.undecodable (.reservedCode c.op))) ∧
  (∀ (s : State) (i : Instr) (u : Nat), i.unit? = some u → s.units.length ≤ u →
    exec i s = .refused (.noSuchUnit u))

/-- R38: the machine given well-formed operations on its port, run for as many steps, does what the fold of the
operation rules over them does, in order, stops included. The port is the model's own (log entry 2). -/
def Obligations.PortRunsOperationsInOrder : Prop :=
  ∀ (is : List Instr) (s : State), (∀ i ∈ is, i.wf = true) → s.port = is.map encode →
    Host.Core.run Sys2Proof.core is.length s = execAll is { s with port := [] }

/-- R6, R8: an operation that goes on adds one entry to the list of results and keeps all earlier ones, and takes
nothing from the port. The list is the model's own, and so is the entry without a value that stands for
`DECODE_RESET`, which has no result (R58, R73; log entry 8). A frame header is eight operations (log entry 1). -/
def Obligations.EachOperationDeliversItsResult : Prop :=
  ∀ (i : Instr) (s t : State), exec i s = .next t →
    ∃ rs, t.results = s.results ++ rs ∧ t.port = s.port ∧
      rs.length = (match i with | .frameHeader _ _ _ => 8 | _ => 1)

/-- R23, R5: no step changes `ILS`, `N_UNITS` or a unit's `CAP`, which the model holds in the state (log entry 4). -/
def Obligations.ParametersNeverChange : Prop :=
  ∀ s t : State, step s = .next t → t.ils = s.ils ∧ t.units.map (·.cap) = s.units.map (·.cap)

/-! ### Invariants -/

/-- R21, R150: the machine at power-on is sound for every `ILS` and every non-empty list of capacities, and so is
`State.reset`. The values at power-on are the model's (log entries 4 and 5). -/
def Obligations.PowerOnIsSound : Prop :=
  (∀ (ils : Nat) (caps : List U32), caps ≠ [] →
    (State.powerOn ils caps).Sound ∧ (State.powerOn ils caps).HeadersOk) ∧
  State.reset.Sound ∧ State.reset.HeadersOk

/-- R20 items 1 and 2, R16, R17, R36: every step keeps the machine's invariant, whatever the host issues. -/
def Obligations.StepKeepsSound : Prop :=
  ∀ s t : State, s.Sound → step s = .next t → t.Sound

/-- R130, R36: a step goes on or is refused and does nothing else, and from a sound state it is refused only where the
spec refuses or a port item is no instruction (log entry 2): no store or load falls outside `BUF` (log entry 11). -/
def Obligations.SoundStatesNeverFault : Prop :=
  (∀ s : State, (∃ t, step s = .next t) ∨ ∃ r, step s = .refused r) ∧
  (∀ (s : State) (r : Refusal), s.Sound → step s = .refused r →
    (∃ e, r = .undecodable e) ∨ (∃ u, r = .noSuchUnit u) ∨ r = .unitNotInitialised ∨ r = .unitInitFailed ∨
    r = .encodeOverrun)

/-- R20: its five items hold after every operation, as long as no `ENCODE` is issued on a unit in mid-decode (R155;
the model computes such an `ENCODE`, decision D21, log entry 24). -/
def Obligations.OneDirectionKeepsHeaderItems : Prop :=
  ∀ (i : Instr) (s t : State), s.HeadersOk → s.oneDirection i → exec i s = .next t → t.HeadersOk

/-- R20, last paragraph: items 3 and 4 do not survive an `ENCODE` on a unit in mid-decode. That such an `ENCODE` runs
is decision D21 (log entry 24). -/
def Obligations.EncodeInMidDecodeBreaksItems : Prop :=
  (∃ (s t : State) (x y : CodecUnit) (p : List Byte), s.Sound ∧ s.HeadersOk ∧ s.isReady 0 x ∧
    exec (.encode 0 p) s = .next t ∧ t.isReady 0 y ∧ x.ds.state = .data ∧ y.ds.state = .data ∧
    ¬ y.ds.bytesCopied.toNat < max y.hdr.length.toNat 1) ∧
  (∃ (s t : State) (x y : CodecUnit) (p : List Byte), s.Sound ∧ s.HeadersOk ∧ s.isReady 0 x ∧
    exec (.encode 0 p) s = .next t ∧ t.isReady 0 y ∧ x.ds.state = .len0 ∧ y.ds.state = .len0 ∧
    y.hdr.length ≠ 0)

/-- R33, R38, R40: a byte written is the byte read there and no other byte changes. That writes keep the canonical
form, and that two memories in that form that read alike are the same data, is about the model's own form of a memory,
in which an unlisted byte reads as 0 (log entry 10). -/
def Obligations.MemoryReadsWhatWasWritten : Prop :=
  (∀ (m : Memory) (off : Nat) (bs : List Byte) (a : Nat), Memory.wf m →
    Memory.read (Memory.writeSeq m off bs) a =
      if off ≤ a ∧ a < off + bs.length then bs.getD (a - off) 0 else Memory.read m a) ∧
  (∀ (m : Memory) (off : Nat) (bs : List Byte), Memory.wf m → Memory.wf (Memory.writeSeq m off bs)) ∧
  (∀ m m' : Memory, Memory.wf m → Memory.wf m' → (∀ a, Memory.read m a = Memory.read m' a) → m = m')

/-! ### Buffer lifecycle -/

/-- R70: `LAYOUT_SIZE` returns `ILS` in every state and changes nothing, and returns the same after any operation. Its
code `0000` is decision D6 (log entry 21). -/
def Obligations.LayoutSizeReturnsIls : Prop :=
  (∀ s : State, exec .layoutSize s = .next { s with results := s.results ++ [.layoutSize s.ils] }) ∧
  encode .layoutSize = .command ⟨0b0000, none, .none⟩ ∧
  (∀ (i : Instr) (s t : State), exec i s = .next t →
    exec .layoutSize t = .next { t with results := t.results ++ [.layoutSize s.ils] })

/-- R71: `INIT` on a unit with `CAP >= ILS + 1` returns `CAP - ILS`, which is not 0, clears `HDR` and `DS`, caches the
usable space and leaves every byte of `BUF` 0; nothing else of the machine changes. The zero `HDR` is decision D10
(log entry 17), and the unit's status is the model's field (log entry 6). -/
def Obligations.InitMakesTheUnitReady : Prop :=
  ∀ (s : State) (u : Nat) (x : CodecUnit), s.units[u]? = some x → s.ils + 1 ≤ x.cap.toNat →
    ∃ y t, exec (.init u) s = .next t ∧ t = (s.setUnit u y).deliver (.usable y.usableSpace) ∧
      y.status = .ready ∧ y.cap = x.cap ∧ y.hdr = ⟨0, 0, 0, 0, 0⟩ ∧ y.ds = ⟨.head0, 0⟩ ∧
      y.usableSpace.toNat = x.cap.toNat - s.ils ∧ 0 < y.usableSpace.toNat ∧
      (∀ off n, off + n ≤ x.cap.toNat - s.ils → t.hostRead u off n = some (List.replicate n 0))

/-- R72, R153: `INIT` on a unit with `CAP <= ILS` returns 0, leaves `usable_space` 0 and no buffer, and leaves the
rest of the machine alone; afterwards every operation on the unit but `INIT` is refused (decision D9, log entry 6). Of
the other registers nothing is said: they hold free values (log entry 7). -/
def Obligations.FailedInitLeavesTheUnitUnusable : Prop :=
  ∀ (s : State) (u : Nat) (x : CodecUnit), s.units[u]? = some x → x.cap.toNat ≤ s.ils →
    ∃ y t, exec (.init u) s = .next t ∧ t = (s.setUnit u y).deliver (.usable 0) ∧
      y.status = .failed ∧ y.cap = x.cap ∧ y.usableSpace = 0 ∧
      (∀ off n, t.hostRead u off n = none) ∧
      (∀ i : Instr, i.unit? = some u → i ≠ .init u → exec i t = .refused .unitInitFailed)

/-- R73: `DECODE_RESET` writes `DS` only, gives no value, changes no register where `DS` is already `HEAD0` with a
count of 0, and two in a row leave what one leaves. Its code `0010` is decision D6 (log entry 21), and the entry
without a value in the list of results is log entry 8. -/
def Obligations.DecodeResetWritesDsOnly : Prop :=
  ∀ (s : State) (u : Nat) (x : CodecUnit), s.isReady u x →
    exec (.decodeReset u) s = .next ((s.setUnit u { x with ds := ⟨.head0, 0⟩ }).deliver .resetDone) ∧
    encode (.decodeReset u) = .command ⟨0b0010, some u, .none⟩ ∧
    (x.ds = ⟨.head0, 0⟩ → exec (.decodeReset u) s = .next (s.deliver .resetDone)) ∧
    (∀ t, exec (.decodeReset u) s = .next t → exec (.decodeReset u) t = .next (t.deliver .resetDone))

/-- R151, R153: before a unit's first `INIT` and after one that returned 0, every operation on it but `INIT` is
refused, and the host reads nothing of its buffer. Refusing rests on decisions D8 and D9 (log entry 6). -/
def Obligations.UnreadyUnitsRefuseAllButInit : Prop :=
  ∀ (s : State) (u : Nat) (x : CodecUnit) (i : Instr), s.units[u]? = some x → i.unit? = some u → i ≠ .init u →
    (x.status = .powerOn → exec i s = .refused .unitNotInitialised ∧ ∀ off n, s.hostRead u off n = none) ∧
    (x.status = .failed → exec i s = .refused .unitInitFailed ∧ ∀ off n, s.hostRead u off n = none)

/-! ### The checksum -/

/-- R80: `checksum(s)` is `(sum + 89) mod 256`, and is the same whether the sum is reduced first or kept in an 8-bit
accumulator that starts at `0x59`. -/
def Obligations.ChecksumIsBiasedByteSum : Prop :=
  ∀ s : List Byte,
    (checksum s).toNat = ((s.map (·.toNat)).sum + 89) % 256 ∧
    (checksum s).toNat = ((s.map (·.toNat)).sum % 256 + (1 + 88)) % 256 ∧
    checksum s = s.foldl (· + ·) 0x59

/-- R82 items 2 to 5: concatenation, order and zero bytes, the change of one byte, and a collision. -/
def Obligations.ChecksumLaws : Prop :=
  (∀ s t : List Byte, checksum (s ++ t) = checksum s + checksum t - 89) ∧
  (∀ s t : List Byte, s.Perm t → checksum s = checksum t) ∧
  (∀ (s : List Byte) (n : Nat), checksum (s ++ List.replicate n 0) = checksum s) ∧
  (∀ (s : List Byte) (k : Nat) (b : Byte) (h : k < s.length), b ≠ s[k] → checksum (s.set k b) ≠ checksum s) ∧
  (∃ s t : List Byte, s.length = t.length ∧ ¬ s.Perm t ∧ checksum s = checksum t)

/-- R81: `CHECKSUM` gives the checksum of its operand in every state, before any `INIT` too, and changes nothing. The
operand's range is decision D22 (log entry 23). -/
def Obligations.ChecksumOperationIsPure : Prop :=
  ∀ (s : State) (bs : List Byte), bs.length < 2 ^ 32 →
    exec (.checksum bs) s =
      .next { s with results := s.results ++ [.checksum (BitVec.ofNat 8 ((bs.map (·.toNat)).sum + 89))] }

/-! ### The encoder -/

/-- R85, R31: a payload whose frame fits is encoded: the result is `n + 8`, `BUF` holds the marker, the checksum, the
length least significant byte first, and the payload, every byte above the frame is as before, `HDR` describes the
frame, and `DS`, `usable_space` and all else are unchanged. -/
def Obligations.EncodeBuildsTheFrame : Prop :=
  ∀ (s : State) (u : Nat) (x : CodecUnit) (p : List Byte), s.Sound → s.isReady u x →
    p.length + 8 ≤ x.usableSpace.toNat →
    ∃ y t, exec (.encode u p) s = .next t ∧
      t = (s.setUnit u y).deliver (.encoded (BitVec.ofNat 32 (p.length + 8))) ∧
      y = { x with hdr := ⟨0x4C, 0x4D, 0x58, checksum p, BitVec.ofNat 32 p.length⟩, buf := y.buf } ∧
      t.hostRead u 0 (p.length + 8) = some ([0x4C, 0x4D, 0x58, checksum p,
        BitVec.ofNat 8 p.length, BitVec.ofNat 8 (p.length / 2 ^ 8),
        BitVec.ofNat 8 (p.length / 2 ^ 16), BitVec.ofNat 8 (p.length / 2 ^ 24)] ++ p) ∧
      (∀ a, p.length + 8 ≤ a → Memory.read y.buf a = Memory.read x.buf a)

/-- R86: `ENCODE` of a payload longer than the usable space returns 0 and changes nothing, and it returns 0 in no other
case. -/
def Obligations.EncodeFailsOnlyWhenTooLong : Prop :=
  ∀ (s : State) (u : Nat) (x : CodecUnit) (p : List Byte), s.isReady u x →
    (x.usableSpace.toNat < p.length → exec (.encode u p) s = .next (s.deliver (.encoded 0))) ∧
    (∀ t, exec (.encode u p) s = .next t → t.results = s.results ++ [.encoded 0] → x.usableSpace.toNat < p.length)

/-- R87: `ENCODE` on an initialised unit is refused exactly in the overrun window. Refusing there is decision D15 (log
entry 20). -/
def Obligations.EncodeOverrunWindowRefused : Prop :=
  ∀ (s : State) (u : Nat) (x : CodecUnit) (p : List Byte), s.isReady u x →
    ((∃ r, exec (.encode u p) s = .refused r) ↔
      x.usableSpace.toNat < p.length + 8 ∧ p.length ≤ x.usableSpace.toNat) ∧
    (∀ r, exec (.encode u p) s = .refused r → r = .encodeOverrun)

/-! ### The header state machine -/

/-- R100: a byte in `HEAD0`, by `DECODE` or `DECODE_FIND`. -/
def Obligations.Head0Byte : Prop :=
  ∀ (s : State) (u : Nat) (b : Byte) (x : CodecUnit), s.isReady u x → x.ds.state = .head0 →
    s.headerStep u b { x with
      hdr := { x.hdr with mark0 := b, length := 0 }
      ds := ⟨if b = 0x4C then .head1 else .head0, 0⟩ }

/-- R101, R102, R108: a byte in `HEAD1` or `HEAD2` is recorded, compared, and on a mismatch examined again as a first
marker byte. That a failing byte is recorded first is decision D11 (log entry 18). -/
def Obligations.MarkerByteMatchesOrRestarts : Prop :=
  ∀ (s : State) (u : Nat) (b : Byte) (x : CodecUnit), s.isReady u x →
    (x.ds.state = .head1 →
      (b = 0x4D → s.headerStep u b { x with
        hdr := { x.hdr with mark1 := b }, ds := ⟨.head2, x.ds.bytesCopied⟩ }) ∧
      (b ≠ 0x4D → s.headerStep u b { x with
        hdr := { x.hdr with mark0 := b, mark1 := b, length := 0 }
        ds := ⟨if b = 0x4C then .head1 else .head0, 0⟩ })) ∧
    (x.ds.state = .head2 →
      (b = 0x58 → s.headerStep u b { x with
        hdr := { x.hdr with mark2 := b }, ds := ⟨.verify, x.ds.bytesCopied⟩ }) ∧
      (b ≠ 0x58 → s.headerStep u b { x with
        hdr := { x.hdr with mark0 := b, mark2 := b, length := 0 }
        ds := ⟨if b = 0x4C then .head1 else .head0, 0⟩ }))

/-- R103 to R106: the checksum byte and the first three length bytes are accepted whatever they are; each length byte
is or-ed in at its place, where the invariant of R20 has zeros, so that it is inserted there. -/
def Obligations.ChecksumAndLengthBytesAccepted : Prop :=
  ∀ (s : State) (u : Nat) (b : Byte) (x : CodecUnit), s.isReady u x →
    (x.ds.state = .verify → s.headerStep u b { x with
      hdr := { x.hdr with checksum := b }, ds := ⟨.len0, x.ds.bytesCopied⟩ }) ∧
    (x.ds.state = .len0 → s.headerStep u b { x with
      hdr := { x.hdr with length := x.hdr.length ||| b.setWidth 32 }, ds := ⟨.len1, x.ds.bytesCopied⟩ }) ∧
    (x.ds.state = .len1 → s.headerStep u b { x with
      hdr := { x.hdr with length := x.hdr.length ||| (b.setWidth 32 <<< 8) }, ds := ⟨.len2, x.ds.bytesCopied⟩ }) ∧
    (x.ds.state = .len2 → s.headerStep u b { x with
      hdr := { x.hdr with length := x.hdr.length ||| (b.setWidth 32 <<< 16) }, ds := ⟨.len3, x.ds.bytesCopied⟩ }) ∧
    (x.HeaderOk →
      (x.ds.state = .len0 → (x.hdr.length ||| b.setWidth 32).toNat = b.toNat) ∧
      (x.ds.state = .len1 →
        (x.hdr.length ||| (b.setWidth 32 <<< 8)).toNat = x.hdr.length.toNat + 256 * b.toNat) ∧
      (x.ds.state = .len2 →
        (x.hdr.length ||| (b.setWidth 32 <<< 16)).toNat = x.hdr.length.toNat + 65536 * b.toNat))

/-- R107: the last length byte, then the unsigned bound: `DATA` if the completed length fits, else `HEAD0` with the
length kept, `BUF` untouched and result 0. That an oversize byte is not examined again is decision D12 (log entry 18). -/
def Obligations.Len3TestsTheBound : Prop :=
  ∀ (s : State) (u : Nat) (b : Byte) (x : CodecUnit) (n : U32), s.isReady u x → x.ds.state = .len3 →
    n = x.hdr.length ||| (b.setWidth 32 <<< 24) →
    (n.toNat ≤ x.usableSpace.toNat → s.headerStep u b { x with
      hdr := { x.hdr with length := n }, ds := ⟨.data, x.ds.bytesCopied⟩ }) ∧
    (x.usableSpace.toNat < n.toNat → s.headerStep u b { x with
      hdr := { x.hdr with length := n }, ds := ⟨.head0, x.ds.bytesCopied⟩ })

/-- R108: bytes searched from `HEAD0` with no marker before the last byte: the state is `VERIFY`, `HEAD2` or `HEAD1`
exactly when they end in `4C 4D 58`, `4C 4D` or `4C`, and `HEAD0` otherwise; every result is 0 and `BUF` is untouched. -/
def Obligations.MarkerSearchIsExact : Prop :=
  ∀ (s : State) (u : Nat) (x : CodecUnit) (bs : List Byte), s.isReady u x → x.ds.state = .head0 →
    ¬ [0x4C, 0x4D, 0x58] <:+: bs.dropLast →
    ∃ y, execAll (feed u bs) s = .next { s.setUnit u y with
        results := s.results ++ List.replicate bs.length (.decoded .pending) } ∧
      (y.ds.state = .verify ↔ [0x4C, 0x4D, 0x58] <:+ bs) ∧
      (y.ds.state = .head2 ↔ [0x4C, 0x4D] <:+ bs) ∧
      (y.ds.state = .head1 ↔ [0x4C] <:+ bs) ∧
      (y.ds.state = .verify ∨ y.searching) ∧ y.buf = x.buf

/-- R50, R107, R110, log entry 1: a frame header arriving at a unit that searches for a marker gives eight results of 0
and leaves the unit in `DATA` if the length fits and in `HEAD0` if it does not; `BUF` is untouched. That the row is
these eight `DECODE`s is the model's choice, and that an oversize length's last byte, a `4C` too, ends in `HEAD0` and is
not examined again is decision D12 (log entry 18). -/
def Obligations.FrameHeaderIsRecognised : Prop :=
  ∀ (s : State) (u : Nat) (c : Byte) (n : U32) (x : CodecUnit), s.isReady u x → x.searching →
    ∃ y, exec (.frameHeader u c n) s = .next { s.setUnit u y with
        results := s.results ++ List.replicate 8 (.decoded .pending) } ∧
      y = { x with hdr := y.hdr, ds := y.ds } ∧ y.hdr = ⟨0x4C, 0x4D, 0x58, c, n⟩ ∧
      y.ds = ⟨if n.toNat ≤ x.usableSpace.toNat then .data else .head0, 0⟩

/-- R50, R51, R63, log entry 1: a frame header at a unit is the eight `DECODE`s of its bytes, and on an initialised unit of
a sound machine it goes on whatever the unit is doing, changing nothing but that unit's `HDR`, `DS` and `BUF`. That the
row is these eight `DECODE`s is the model's choice. -/
def Obligations.FrameHeaderIsEightDecodes : Prop :=
  ∀ (s : State) (u : Nat) (c : Byte) (n : U32),
    exec (.frameHeader u c n) s = execAll (feed u [0x4C, 0x4D, 0x58, c,
      BitVec.ofNat 8 n.toNat, BitVec.ofNat 8 (n.toNat / 2 ^ 8),
      BitVec.ofNat 8 (n.toNat / 2 ^ 16), BitVec.ofNat 8 (n.toNat / 2 ^ 24)]) s ∧
    (∀ x, s.Sound → s.isReady u x → ∃ y rs, exec (.frameHeader u c n) s = .next { s.setUnit u y with
        results := s.results ++ rs } ∧
      y = { x with hdr := y.hdr, ds := y.ds, buf := y.buf } ∧ rs.length = 8)

/-! ### DECODE -/

/-- R110, R112, R113: outside `DATA`, `DECODE` runs the header state machine and returns 0. In `DATA` it stores the
byte at `DS.bytes_copied` and counts it; an incomplete payload returns 0; a complete one resets `DS` and compares the
checksum of the stored payload: 1 with `outLength`, or -1, the bytes staying in `BUF`. `HDR`, every other byte and all
else are unchanged. The code `0101` is decision D6 (log entry 21), and that a frame of length 0 completes on the next
byte is decision D13 (log entry 19). -/
def Obligations.DecodeTakesOneByte : Prop :=
  ∀ (s : State) (u : Nat) (b : Byte) (x : CodecUnit), s.Sound → s.isReady u x →
    encode (.decode u b) = .command ⟨0b0101, some u, .byte b⟩ ∧
    (x.ds.state ≠ .data →
      exec (.decode u b) s = .next ((s.setUnit u (hdrStep b x)).deliver (.decoded .pending))) ∧
    (x.ds.state = .data → ∃ y t r, exec (.decode u b) s = .next t ∧
      t = (s.setUnit u y).deliver (.decoded r) ∧
      y = { x with ds := y.ds, buf := y.buf } ∧
      (∀ a, Memory.read y.buf a = if a = x.ds.bytesCopied.toNat then b else Memory.read x.buf a) ∧
      (x.ds.bytesCopied.toNat + 1 < x.hdr.length.toNat →
        y.ds.state = .data ∧ y.ds.bytesCopied.toNat = x.ds.bytesCopied.toNat + 1 ∧ r = .pending) ∧
      (x.hdr.length.toNat ≤ x.ds.bytesCopied.toNat + 1 → y.ds = ⟨.head0, 0⟩ ∧
        ∃ payload, t.hostRead u 0 x.hdr.length.toNat = some payload ∧
          (checksum payload = x.hdr.checksum → r = .success x.hdr.length) ∧
          (checksum payload ≠ x.hdr.checksum → r = .checksumFailure)))

/-- R114: a zero-length header enters `DATA`; the next byte given to `DECODE`, whatever it is, is stored at `BUF[0]`,
completes the frame and is lost to the stream; the result is 1 with `outLength = 0` exactly when `HDR.checksum` is
`0x59`, and -1 otherwise. This completion is decision D13 (log entry 19). -/
def Obligations.ZeroLengthFrameSwallowsAByte : Prop :=
  (∀ (s : State) (u : Nat) (b : Byte) (x : CodecUnit), s.isReady u x → x.ds.state = .len3 →
    x.hdr.length ||| (b.setWidth 32 <<< 24) = 0 →
    s.headerStep u b { x with hdr := { x.hdr with length := 0 }, ds := ⟨.data, x.ds.bytesCopied⟩ }) ∧
  (∀ (s : State) (u : Nat) (b : Byte) (x : CodecUnit), s.Sound → s.isReady u x →
    x.ds.state = .data → x.hdr.length = 0 → x.ds.bytesCopied = 0 →
    ∃ y t, t.hostRead u 0 1 = some [b] ∧ y = { x with ds := ⟨.head0, 0⟩, buf := y.buf } ∧
      (∀ a, a ≠ 0 → Memory.read y.buf a = Memory.read x.buf a) ∧
      t = (s.setUnit u y).deliver
        (.decoded (if x.hdr.checksum = 0x59 then .success 0 else .checksumFailure)) ∧
      exec (.decode u b) s = .next t)

/-! ### The bulk path -/

/-- R120, R121: `DECODE_FIND` runs the header state machine outside `DATA` and returns the length if the state is then
`DATA`, 0 otherwise; in `DATA` it changes nothing and returns the length again (decision D14, log entry 19). It never
touches `BUF`, and its result is at most the usable space. -/
def Obligations.DecodeFindReportsTheLength : Prop :=
  ∀ (s : State) (u : Nat) (b : Byte) (x : CodecUnit), s.Sound → s.isReady u x →
    ∃ y n, exec (.decodeFind u b) s = .next ((s.setUnit u y).deliver (.found n)) ∧
      y = { x with hdr := y.hdr, ds := y.ds } ∧ n.toNat ≤ x.usableSpace.toNat ∧
      (y.ds.state = .data → n = y.hdr.length) ∧ (y.ds.state ≠ .data → n = 0) ∧
      (x.ds.state ≠ .data → y = hdrStep b x) ∧ (x.ds.state = .data → y = x)

/-- R123: outside `DATA` or with another length `DECODE_COPY` returns -2 and changes nothing. With the right length it
resets `DS`, copies the slice to `BUF` from offset 0 and compares the checksum: 0, or -1 with the bytes copied all the
same. `HDR`, every byte above the slice and all else are unchanged. The code `0111` is decision D6 (log entry 21). -/
def Obligations.DecodeCopyTakesTheSlice : Prop :=
  ∀ (s : State) (u : Nat) (src : List Byte) (x : CodecUnit), s.Sound → s.isReady u x →
    encode (.decodeCopy u src) = .command ⟨0b0111, some u, .seq src⟩ ∧
    (x.ds.state ≠ .data ∨ src.length ≠ x.hdr.length.toNat →
      exec (.decodeCopy u src) s = .next (s.deliver (.copied .mismatch))) ∧
    (x.ds.state = .data → src.length = x.hdr.length.toNat → ∃ y t r,
      exec (.decodeCopy u src) s = .next t ∧ t = (s.setUnit u y).deliver (.copied r) ∧
      y = { x with ds := ⟨.head0, 0⟩, buf := y.buf } ∧
      t.hostRead u 0 src.length = some src ∧
      (∀ a, src.length ≤ a → Memory.read y.buf a = Memory.read x.buf a) ∧
      (checksum src = x.hdr.checksum → r = .success) ∧
      (checksum src ≠ x.hdr.checksum → r = .checksumFailure))

/-- R121: a unit leaves `DATA` only by `DECODE` completing the payload, `DECODE_COPY` returning 0 or -1, `DECODE_RESET` or
`INIT`, and by a frame header taken as payload bytes (log entry 1). -/
def Obligations.DataIsLeftOnlyByTheseOperations : Prop :=
  ∀ (i : Instr) (s t : State) (u : Nat) (x y : CodecUnit), exec i s = .next t → s.isReady u x →
    x.ds.state = .data → t.units[u]? = some y → y.ds.state ≠ .data →
    i = .init u ∨ i = .decodeReset u ∨
    (∃ b r, i = .decode u b ∧ r ≠ .pending ∧ t.results = s.results ++ [.decoded r]) ∨
    (∃ src r, i = .decodeCopy u src ∧ r ≠ .mismatch ∧ t.results = s.results ++ [.copied r]) ∨
    (∃ c n, i = .frameHeader u c n)

/-- R10, the column "written by": which operations can change each register group and `BUF` of a unit. Beside the
table, a frame header, which is eight `DECODE`s, can write what they write (log entry 1), and the model's own fields
`status` and `initCount` change only by `INIT` (log entries 6 and 7). -/
def Obligations.RegistersWrittenOnlyByTheirWriters : Prop :=
  ∀ (i : Instr) (s t : State) (u : Nat) (x y : CodecUnit), exec i s = .next t →
    s.units[u]? = some x → t.units[u]? = some y →
    y.cap = x.cap ∧
    (y.usableSpace ≠ x.usableSpace ∨ y.status ≠ x.status ∨ y.initCount ≠ x.initCount → i = .init u) ∧
    (y.buf ≠ x.buf → i = .init u ∨ (∃ p, i = .encode u p) ∨ (∃ b, i = .decode u b ∧ x.ds.state = .data) ∨
      (∃ src, i = .decodeCopy u src ∧ x.ds.state = .data) ∨ (∃ c n, i = .frameHeader u c n)) ∧
    (y.hdr ≠ x.hdr → i = .init u ∨ (∃ p, i = .encode u p) ∨ (∃ b, i = .decode u b ∧ x.ds.state ≠ .data) ∨
      (∃ b, i = .decodeFind u b ∧ x.ds.state ≠ .data) ∨ (∃ c n, i = .frameHeader u c n)) ∧
    (y.ds ≠ x.ds → i = .init u ∨ i = .decodeReset u ∨ (∃ b, i = .decode u b) ∨
      (∃ b, i = .decodeFind u b ∧ x.ds.state ≠ .data) ∨ (∃ src, i = .decodeCopy u src ∧ x.ds.state = .data) ∨
      (∃ c n, i = .frameHeader u c n))

/-! ### Whole frames -/

/-- R89, incremental path: a payload of at least one byte encoded on one unit, read out by the host and fed byte by byte
to another unit that searches for a marker, arrives: all results but the last are 0, the last is 1 with `outLength`
the payload's length, and the host reads the payload. -/
def Obligations.RoundTripByDecode : Prop :=
  ∀ (s : State) (u v : Nat) (x z : CodecUnit) (p : List Byte), s.Sound → u ≠ v → s.isReady u x → s.isReady v z →
    z.searching → 1 ≤ p.length → p.length + 8 ≤ x.usableSpace.toNat → p.length ≤ z.usableSpace.toNat →
    ∃ t is w y, exec (.encode u p) s = .next t ∧ t.results = s.results ++ [.encoded (BitVec.ofNat 32 (p.length + 8))] ∧
      xfer t u v (p.length + 8) = some is ∧ execAll is t = .next w ∧
      w.results = t.results ++ List.replicate (p.length + 7) (.decoded .pending) ++
        [.decoded (.success (BitVec.ofNat 32 p.length))] ∧
      w.hostRead v 0 p.length = some p ∧ w.units[v]? = some y ∧ y.ds = ⟨.head0, 0⟩

/-- R89, bulk path: the same frame with its header by `DECODE_FIND` (seven results of 0, then the length) and its payload
by one `DECODE_COPY` (result 0). -/
def Obligations.RoundTripByFindAndCopy : Prop :=
  ∀ (s : State) (u v : Nat) (x z : CodecUnit) (p : List Byte), s.Sound → u ≠ v → s.isReady u x → s.isReady v z →
    z.searching → 1 ≤ p.length → p.length + 8 ≤ x.usableSpace.toNat → p.length ≤ z.usableSpace.toNat →
    ∃ t header src w y, exec (.encode u p) s = .next t ∧
      t.hostRead u 0 8 = some header ∧ t.hostRead u 8 p.length = some src ∧
      execAll (feedf v header ++ [.decodeCopy v src]) t = .next w ∧
      w.results = t.results ++ List.replicate 7 (.found 0) ++
        [.found (BitVec.ofNat 32 p.length), .copied .success] ∧
      w.hostRead v 0 p.length = some p ∧ w.units[v]? = some y ∧ y.ds = ⟨.head0, 0⟩

/-- R115: garbage without a marker before a frame that fits is ignored. -/
def Obligations.GarbageBeforeAFrameIsIgnored : Prop :=
  ∀ (s : State) (u : Nat) (x : CodecUnit) (g p : List Byte), s.Sound → s.isReady u x → x.ds.state = .head0 →
    ¬ [0x4C, 0x4D, 0x58] <:+: g → 1 ≤ p.length → p.length ≤ x.usableSpace.toNat →
    ∃ w y, execAll (feed u (g ++ frameOf (checksum p) p)) s = .next w ∧
      w.results = s.results ++ List.replicate (g.length + p.length + 7) (.decoded .pending) ++
        [.decoded (.success (BitVec.ofNat 32 p.length))] ∧
      w.hostRead u 0 p.length = some p ∧ w.units[u]? = some y ∧ y.ds = ⟨.head0, 0⟩

/-- R73: `DECODE_RESET` at any point, in any state of the registers, then a fresh frame that fits: it succeeds. -/
def Obligations.ResetThenFreshFrameSucceeds : Prop :=
  ∀ (s : State) (u : Nat) (x : CodecUnit) (p : List Byte), s.Sound → s.isReady u x →
    1 ≤ p.length → p.length ≤ x.usableSpace.toNat →
    ∃ w y, execAll (.decodeReset u :: feed u (frameOf (checksum p) p)) s = .next w ∧
      w.results = s.results ++ .resetDone :: List.replicate (p.length + 7) (.decoded .pending) ++
        [.decoded (.success (BitVec.ofNat 32 p.length))] ∧
      w.hostRead u 0 p.length = some p ∧ w.units[u]? = some y ∧ y.ds = ⟨.head0, 0⟩

/-- R124: header bytes that bring a unit to `DATA` with a length of at least 1, then that many bytes: fed by `DECODE` alone,
or by `DECODE_FIND` and one `DECODE_COPY`, they leave the machine with the same units, and the outcomes correspond. -/
def Obligations.BothPathsLeaveTheSameUnits : Prop :=
  ∀ (s m t : State) (u : Nat) (x y : CodecUnit) (h q : List Byte) (b : Byte), s.Sound → s.isReady u x →
    x.ds.state ≠ .data → execAll (feedf u h) s = .next m → (∀ z, m.units[u]? = some z → z.ds.state ≠ .data) →
    execAll (feedf u [b]) m = .next t → t.units[u]? = some y → y.ds.state = .data →
    y.hdr.length.toNat = q.length → 1 ≤ q.length →
    ∃ w w' r r', execAll (feed u (h ++ [b] ++ q)) s = .next w ∧
      execAll (feedf u (h ++ [b]) ++ [.decodeCopy u q]) s = .next w' ∧
      w.units = w'.units ∧ w.ils = w'.ils ∧ w.port = w'.port ∧
      w.results = s.results ++ List.replicate (h.length + q.length) (.decoded .pending) ++ [.decoded r] ∧
      w'.results = s.results ++ List.replicate h.length (.found 0) ++ [.found y.hdr.length, .copied r'] ∧
      w.hostRead u 0 q.length = some q ∧
      (r = .success y.hdr.length ∧ r' = .success ∨ r = .checksumFailure ∧ r' = .checksumFailure)

/-- R82 item 4, R134: a payload of the right length with exactly one byte changed is a checksum failure on both paths,
and the received bytes stay in `BUF`. -/
def Obligations.OneChangedByteIsDetected : Prop :=
  ∀ (s : State) (u : Nat) (x : CodecUnit) (p : List Byte) (k : Nat) (b : Byte) (hk : k < p.length),
    s.Sound → s.isReady u x → x.ds.state = .data → x.hdr.length.toNat = p.length → x.hdr.checksum = checksum p →
    b ≠ p[k] →
    (∃ t, exec (.decodeCopy u (p.set k b)) s = .next t ∧ t.results = s.results ++ [.copied .checksumFailure] ∧
      t.hostRead u 0 p.length = some (p.set k b)) ∧
    (x.ds.bytesCopied = 0 → ∃ t, execAll (feed u (p.set k b)) s = .next t ∧
      t.results = s.results ++ List.replicate (p.length - 1) (.decoded .pending) ++ [.decoded .checksumFailure] ∧
      t.hostRead u 0 p.length = some (p.set k b))

/-! ### What an operation cannot reach or see -/

/-- R22: an operation on one unit leaves every other unit alone, and its outcome depends on the other units in nothing. -/
def Obligations.UnitsShareNothing : Prop :=
  ∀ (i : Instr) (u : Nat) (s s' : State), i.unit? = some u → s.ils = s'.ils → s.units[u]? = s'.units[u]? →
    (∀ t, exec i s = .next t → (∀ v, v ≠ u → t.units[v]? = s.units[v]?) ∧
      ∃ t' rs, exec i s' = .next t' ∧ t'.units[u]? = t.units[u]? ∧
        t.results = s.results ++ rs ∧ t'.results = s'.results ++ rs) ∧
    (∀ r, exec i s = .refused r → exec i s' = .refused r)

/-- R38: operations on different units commute: in either order they leave the same units and give the same results. -/
def Obligations.DifferentUnitsCommute : Prop :=
  ∀ (i j : Instr) (u v : Nat) (s t : State), i.unit? = some u → j.unit? = some v → u ≠ v →
    execAll [i, j] s = .next t →
    ∃ t' ri rj, execAll [j, i] s = .next t' ∧ t'.units = t.units ∧ t'.ils = t.ils ∧ t'.port = t.port ∧
      t.results = s.results ++ ri ++ rj ∧ t'.results = s.results ++ rj ++ ri

/-- R11: no operation's result, no byte of `BUF` and no other register depends on the marker registers. -/
def Obligations.MarkRegistersAreNeverRead : Prop :=
  ∀ (i : Instr) (s s' : State), s.eraseMarks = s'.eraseMarks →
    sameView State.eraseMarks (exec i s) (exec i s')

/-- R21, R150: what the registers and buffer of a unit hold before a successful `INIT` cannot be told by any operation, so
the values the model chose for them (log entries 5 and 7) are not seen. -/
def Obligations.UnspecifiedRegistersAreNeverSeen : Prop :=
  ∀ (i : Instr) (s s' : State), s.specified = s'.specified →
    sameView State.specified (exec i s) (exec i s')

/-- R60, R61: the bus codes of the results of `INIT`, `ENCODE`, `DECODE`, `DECODE_FIND` and `DECODE_COPY`, and
`outLength` with `DECODE`'s code 1 alone. The bus encoding is decision D7 (log entry 22). -/
def Obligations.ResultBusCodes : Prop :=
  DecodeResult.bus .pending = 0x00000000 ∧ (∀ n, DecodeResult.bus (.success n) = 0x00000001) ∧
  DecodeResult.bus .checksumFailure = 0xFFFFFFFF ∧ CopyResult.bus .success = 0x00000000 ∧
  CopyResult.bus .checksumFailure = 0xFFFFFFFF ∧ CopyResult.bus .mismatch = 0xFFFFFFFE ∧
  (∀ n, Result.bus (.usable n) = some n) ∧ (∀ n, Result.bus (.encoded n) = some n) ∧
  (∀ n, Result.bus (.found n) = some n) ∧ (∀ r, Result.bus (.decoded r) = some r.bus) ∧
  (∀ r, Result.bus (.copied r) = some r.bus) ∧
  (∀ r : DecodeResult, r.bus = 1 ↔ ∃ n, r.outLength = some n)
end

