-- ==== Sys2Proof/Laws/Bytes.lean ====
section
/-! SUPPORT. The length field split into bytes and assembled again (30_encoding.md R51). -/

namespace Sys2Proof

theorem toNat_zext32 (b : Byte) : (zext32 b).toNat = b.toNat := by
  simp [zext32]; omega

theorem toNat_lengthByte (v : U32) (k : Nat) : (lengthByte v k).toNat = v.toNat / 2 ^ (8 * k) % 256 := by
  simp [lengthByte, Nat.shiftRight_eq_div_pow]

/-- A byte or-ed in above every set bit is added there. -/
theorem toNat_orLengthByte {v : U32} {b : Byte} {k : Nat} (hk : k < 4) (hv : v.toNat < 2 ^ (8 * k)) :
    (orLengthByte v b k).toNat = v.toNat + 2 ^ (8 * k) * b.toNat := by
  have hb : b.toNat < 256 := b.isLt
  have hs : (zext32 b <<< (8 * k)).toNat = 2 ^ (8 * k) * b.toNat := by
    rw [BitVec.toNat_shiftLeft, toNat_zext32, Nat.shiftLeft_eq, Nat.mod_eq_of_lt, Nat.mul_comm]
    interval_cases k <;> omega
  rw [orLengthByte, BitVec.toNat_or, hs, Nat.or_comm, ← Nat.two_pow_add_eq_or_of_lt hv, Nat.add_comm]

/-- The assembled length (R51). -/
theorem toNat_lengthOfBytes (a b d e : Byte) :
    (lengthOfBytes a b d e).toNat = a.toNat + 256 * b.toNat + 65536 * d.toNat + 16777216 * e.toNat := by
  have ha := a.isLt; have hb := b.isLt; have hd := d.isLt
  have hz : (0 : U32).toNat = 0 := rfl
  have h0 := toNat_orLengthByte (v := 0) (b := a) (k := 0) (by omega) (by decide)
  simp only [hz, Nat.reduceMul, Nat.reducePow] at h0
  have h1 := toNat_orLengthByte (v := orLengthByte 0 a 0) (b := b) (k := 1) (by omega) (by omega)
  simp only [Nat.reduceMul, Nat.reducePow] at h1
  have h2 := toNat_orLengthByte (v := orLengthByte (orLengthByte 0 a 0) b 1) (b := d) (k := 2) (by omega) (by omega)
  simp only [Nat.reduceMul, Nat.reducePow] at h2
  have h3 := toNat_orLengthByte (v := orLengthByte (orLengthByte (orLengthByte 0 a 0) b 1) d 2) (b := e) (k := 3)
    (by omega) (by omega)
  simp only [Nat.reduceMul, Nat.reducePow] at h3
  rw [lengthOfBytes]; omega

/-- A length split into its four bytes is assembled again. -/
theorem lengthOfBytes_lengthByte (n : U32) :
    lengthOfBytes (lengthByte n 0) (lengthByte n 1) (lengthByte n 2) (lengthByte n 3) = n := by
  apply BitVec.eq_of_toNat_eq
  rw [toNat_lengthOfBytes]
  simp only [toNat_lengthByte]
  have := n.isLt
  omega

/-- Four bytes assembled are split into the same four. -/
theorem lengthBytes_lengthOfBytes (a b d e : Byte) : lengthBytes (lengthOfBytes a b d e) = [a, b, d, e] := by
  have ha := a.isLt; have hb := b.isLt; have hd := d.isLt; have he := e.isLt
  have h := toNat_lengthOfBytes a b d e
  simp only [lengthBytes, List.cons.injEq, and_true]
  refine ⟨?_, ?_, ?_, ?_⟩ <;> apply BitVec.eq_of_toNat_eq <;> rw [toNat_lengthByte, h] <;> omega

end Sys2Proof
end

