-- ==== Sys2Proof/Laws/Checksum.lean ====
section
/-! SUPPORT. The byte sum behind the checksum (41_checksum.md). -/

namespace Sys2Proof.Machine

@[simp] theorem byteSum_nil : byteSum [] = 0 := rfl
@[simp] theorem byteSum_cons (b : Byte) (bs : List Byte) : byteSum (b :: bs) = b.toNat + byteSum bs := rfl

@[simp] theorem byteSum_append (as bs : List Byte) : byteSum (as ++ bs) = byteSum as + byteSum bs := by
  induction as with
  | nil => simp
  | cons a as ih => simp [ih, Nat.add_assoc]

/-- The checksum as a number. -/
theorem toNat_checksum (s : List Byte) : (checksum s).toNat = (byteSum s + 89) % 256 := rfl

end Sys2Proof.Machine
end

