-- ==== Sys2Proof/Laws/Memory.lean ====
section
/-! SUPPORT. What reading and writing bytes do, and that every write keeps the canonical form and the bounds. -/

namespace Sys2Proof.Machine

theorem Memory.read_of_lt {m : Memory} {a : Nat} (h : ∀ c ∈ m, a < c.1) : Memory.read m a = 0 := by
  induction m with
  | nil => rfl
  | cons c m ih =>
    have hc := h c (by simp)
    rw [Memory.read, if_neg (by omega), ih fun d hd => h d (by simp [hd])]

theorem Memory.read_cons (a : Nat) (b : Byte) (m : Memory) (h : ∀ c ∈ m, a < c.1) (k : Nat) :
    Memory.read (Memory.cons a b m) k = if k = a then b else Memory.read m k := by
  unfold Memory.cons
  split
  · next hb =>
    split
    · next hk => rw [hk, hb, Memory.read_of_lt h]
    · rfl
  · rfl

/-- A read after a write: the byte written at its address, every other byte as before. -/
theorem Memory.read_write {m : Memory} (hm : Memory.wf m) (a : Nat) (b : Byte) (k : Nat) :
    Memory.read (Memory.write m a b) k = if k = a then b else Memory.read m k := by
  induction m with
  | nil => rw [Memory.write, Memory.read_cons _ _ _ (by simp)]
  | cons c m ih =>
    obtain ⟨i, v⟩ := c
    have hs := List.pairwise_cons.mp hm.1
    have ih := ih ⟨hs.2, fun d hd => hm.2 d (by simp [hd])⟩
    unfold Memory.write
    split
    · next hlt =>
      refine Memory.read_cons _ _ _ ?_ k
      intro d hd
      rcases List.mem_cons.mp hd with rfl | hd
      · exact hlt
      · have := hs.1 d hd; simp only at this; omega
    · split
      · next _ heq =>
        subst heq
        rw [Memory.read_cons _ _ _ (fun d hd => hs.1 d hd)]
        by_cases hk : k = a <;> simp [Memory.read, hk]
      · next _ hne =>
        simp only [Memory.read, ih]
        by_cases hk : k = i
        · have hka : k ≠ a := by omega
          simp [hk]; intro h; omega
        · simp [hk]

theorem Memory.cons_keys {P : Nat → Prop} {a : Nat} {b : Byte} {m : Memory} (ha : P a) (h : ∀ c ∈ m, P c.1) :
    ∀ c ∈ Memory.cons a b m, P c.1 := by
  unfold Memory.cons
  split
  · exact h
  · simpa [ha] using fun x y hxy => h (x, y) hxy

/-- A property of every listed address and of the address written holds of every listed address afterwards. -/
theorem Memory.write_keys {P : Nat → Prop} {m : Memory} {a : Nat} (b : Byte) (ha : P a) (h : ∀ c ∈ m, P c.1) :
    ∀ c ∈ Memory.write m a b, P c.1 := by
  induction m with
  | nil => exact Memory.cons_keys ha h
  | cons c m ih =>
    obtain ⟨i, v⟩ := c
    have hm : ∀ c ∈ m, P c.1 := fun d hd => h d (by simp [hd])
    unfold Memory.write
    split
    · exact Memory.cons_keys ha h
    · split
      · exact Memory.cons_keys ha hm
      · intro d hd
        rcases List.mem_cons.mp hd with rfl | hd
        · exact h _ (by simp)
        · exact ih hm d hd

theorem Memory.wf_cons {a : Nat} {b : Byte} {m : Memory} (hm : Memory.wf m) (h : ∀ c ∈ m, a < c.1) :
    Memory.wf (Memory.cons a b m) := by
  unfold Memory.cons
  split
  · exact hm
  · next hb =>
    refine ⟨List.pairwise_cons.mpr ⟨h, hm.1⟩, ?_⟩
    intro c hc
    rcases List.mem_cons.mp hc with rfl | hc
    · exact hb
    · exact hm.2 c hc

/-- A write keeps the canonical form. -/
theorem Memory.wf_write {m : Memory} (hm : Memory.wf m) (a : Nat) (b : Byte) : Memory.wf (Memory.write m a b) := by
  induction m with
  | nil => exact Memory.wf_cons hm (by simp)
  | cons c m ih =>
    obtain ⟨i, v⟩ := c
    have hs := List.pairwise_cons.mp hm.1
    have hm' : Memory.wf m := ⟨hs.2, fun d hd => hm.2 d (by simp [hd])⟩
    unfold Memory.write
    split
    · next hlt =>
      refine Memory.wf_cons hm fun d hd => ?_
      rcases List.mem_cons.mp hd with rfl | hd
      · exact hlt
      · have := hs.1 d hd; simp only at this; omega
    · split
      · next _ heq => subst heq; exact Memory.wf_cons hm' fun d hd => hs.1 d hd
      · next hlt hne =>
        have hw := ih hm'
        refine ⟨List.pairwise_cons.mpr ⟨?_, hw.1⟩, ?_⟩
        · exact Memory.write_keys (P := fun k => i < k) b (by omega) fun d hd => hs.1 d hd
        · intro d hd
          rcases List.mem_cons.mp hd with rfl | hd
          · exact hm.2 _ (by simp)
          · exact hw.2 d hd

/-- A sequence written keeps the canonical form. -/
theorem Memory.wf_writeSeq {m : Memory} (hm : Memory.wf m) (off : Nat) (bs : List Byte) :
    Memory.wf (Memory.writeSeq m off bs) := by
  induction bs generalizing m off with
  | nil => exact hm
  | cons b bs ih => exact ih (Memory.wf_write hm off b) (off + 1)

/-- A sequence written below a bound keeps every listed address below it. -/
theorem Memory.writeSeq_lt {m : Memory} {n off : Nat} {bs : List Byte} (h : ∀ c ∈ m, c.1 < n)
    (hb : off + bs.length ≤ n) : ∀ c ∈ Memory.writeSeq m off bs, c.1 < n := by
  induction bs generalizing m off with
  | nil => exact h
  | cons b bs ih =>
    simp only [List.length_cons] at hb
    exact ih (Memory.write_keys (P := (· < n)) b (by omega) h) (by omega)

/-- A read after a sequence is written: the sequence's bytes at their offsets, every other byte as before. -/
theorem Memory.read_writeSeq {m : Memory} (hm : Memory.wf m) (off : Nat) (bs : List Byte) (k : Nat) :
    Memory.read (Memory.writeSeq m off bs) k =
      if off ≤ k then (bs[k - off]?).getD (Memory.read m k) else Memory.read m k := by
  induction bs generalizing m off with
  | nil => simp [Memory.writeSeq]
  | cons b bs ih =>
    rw [Memory.writeSeq, ih (Memory.wf_write hm off b), Memory.read_write hm]
    rcases Nat.lt_trichotomy k off with h | h | h
    · rw [if_neg (by omega), if_neg (by omega), if_neg (by omega)]
    · subst h; simp
    · obtain ⟨j, rfl⟩ : ∃ j, k = off + 1 + j := ⟨k - (off + 1), by omega⟩
      rw [if_pos (show off + 1 ≤ off + 1 + j by omega), if_pos (show off ≤ off + 1 + j by omega),
        if_neg (show ¬ off + 1 + j = off by omega), Nat.add_sub_cancel_left,
        show off + 1 + j - off = j + 1 by omega, List.getElem?_cons_succ]

@[simp] theorem Memory.length_readSeq (m : Memory) (off n : Nat) : (Memory.readSeq m off n).length = n := by
  induction n generalizing off with
  | zero => rfl
  | succ n ih => simp [Memory.readSeq, ih]

theorem Memory.getElem?_readSeq (m : Memory) (off n k : Nat) :
    (Memory.readSeq m off n)[k]? = if k < n then some (Memory.read m (off + k)) else none := by
  induction n generalizing off k with
  | zero => simp [Memory.readSeq]
  | succ n ih =>
    cases k with
    | zero => simp [Memory.readSeq]
    | succ k => simp only [Memory.readSeq, List.getElem?_cons_succ, ih]; simp [Nat.add_right_comm, Nat.add_assoc]

/-- Two reads agree when the memories agree on the bytes read. -/
theorem Memory.readSeq_congr {m m' : Memory} {off off' n : Nat}
    (h : ∀ k, k < n → Memory.read m (off + k) = Memory.read m' (off' + k)) :
    Memory.readSeq m off n = Memory.readSeq m' off' n := by
  refine List.ext_getElem? fun k => ?_
  simp only [Memory.getElem?_readSeq]
  split
  · next hk => rw [h k hk]
  · rfl

/-- A sequence written is read back. -/
theorem Memory.readSeq_writeSeq {m : Memory} (hm : Memory.wf m) (off : Nat) (bs : List Byte) :
    Memory.readSeq (Memory.writeSeq m off bs) off bs.length = bs := by
  refine List.ext_getElem? fun k => ?_
  rw [Memory.getElem?_readSeq, Memory.read_writeSeq hm, if_pos (Nat.le_add_right off k), Nat.add_sub_cancel_left]
  by_cases hk : k < bs.length
  · rw [if_pos hk, List.getElem?_eq_getElem hk]; rfl
  · rw [if_neg hk, List.getElem?_eq_none (by omega)]

/-- One sequence after another is the two joined. -/
theorem Memory.writeSeq_append (m : Memory) (off : Nat) (as bs : List Byte) :
    Memory.writeSeq m off (as ++ bs) = Memory.writeSeq (Memory.writeSeq m off as) (off + as.length) bs := by
  induction as generalizing m off with
  | nil => rfl
  | cons a as ih => simp only [List.cons_append, Memory.writeSeq, ih, List.length_cons]; congr 1; omega

end Sys2Proof.Machine
end

