-- ==== Sys2Proof/Laws/State.lean ====
section
/-! SUPPORT. One lemma per field for the updates of the state and of a unit, and what the unit operations answer. -/

namespace Sys2Proof.Machine

@[simp] theorem setUnit_ils (s : State) (u : Nat) (x : CodecUnit) : (s.setUnit u x).ils = s.ils := rfl
@[simp] theorem setUnit_units (s : State) (u : Nat) (x : CodecUnit) : (s.setUnit u x).units = s.units.set u x := rfl
@[simp] theorem setUnit_port (s : State) (u : Nat) (x : CodecUnit) : (s.setUnit u x).port = s.port := rfl
@[simp] theorem setUnit_results (s : State) (u : Nat) (x : CodecUnit) : (s.setUnit u x).results = s.results := rfl

@[simp] theorem deliver_ils (s : State) (r : Result) : (s.deliver r).ils = s.ils := rfl
@[simp] theorem deliver_units (s : State) (r : Result) : (s.deliver r).units = s.units := rfl
@[simp] theorem deliver_port (s : State) (r : Result) : (s.deliver r).port = s.port := rfl
@[simp] theorem deliver_results (s : State) (r : Result) : (s.deliver r).results = s.results ++ [r] := rfl

@[simp] theorem resetDs_cap (x : CodecUnit) : x.resetDs.cap = x.cap := rfl
@[simp] theorem resetDs_status (x : CodecUnit) : x.resetDs.status = x.status := rfl
@[simp] theorem resetDs_hdr (x : CodecUnit) : x.resetDs.hdr = x.hdr := rfl
@[simp] theorem resetDs_ds (x : CodecUnit) : x.resetDs.ds = ⟨.head0, 0⟩ := rfl
@[simp] theorem resetDs_usableSpace (x : CodecUnit) : x.resetDs.usableSpace = x.usableSpace := rfl
@[simp] theorem resetDs_buf (x : CodecUnit) : x.resetDs.buf = x.buf := rfl
@[simp] theorem resetDs_initCount (x : CodecUnit) : x.resetDs.initCount = x.initCount := rfl

@[simp] theorem countByte_cap (x : CodecUnit) : x.countByte.cap = x.cap := rfl
@[simp] theorem countByte_status (x : CodecUnit) : x.countByte.status = x.status := rfl
@[simp] theorem countByte_hdr (x : CodecUnit) : x.countByte.hdr = x.hdr := rfl
@[simp] theorem countByte_state (x : CodecUnit) : x.countByte.ds.state = x.ds.state := rfl
@[simp] theorem countByte_bytesCopied (x : CodecUnit) : x.countByte.ds.bytesCopied = x.ds.bytesCopied + 1 := rfl
@[simp] theorem countByte_usableSpace (x : CodecUnit) : x.countByte.usableSpace = x.usableSpace := rfl
@[simp] theorem countByte_buf (x : CodecUnit) : x.countByte.buf = x.buf := rfl
@[simp] theorem countByte_initCount (x : CodecUnit) : x.countByte.initCount = x.initCount := rfl

@[simp] theorem finish_next (s : State) (u : Nat) (x : CodecUnit) (r : Result) :
    s.finish u (.next (x, r)) = .next ((s.setUnit u x).deliver r) := rfl
@[simp] theorem finish_fault (s : State) (u : Nat) (f : Fault) : s.finish u (.fault f) = .fault f := rfl
@[simp] theorem finish_refused (s : State) (u : Nat) (r : Refusal) : s.finish u (.refused r) = .refused r := rfl

@[simp] theorem andThen_next (s : State) (f : State → Host.Outcome State Fault Refusal) :
    andThen (.next s) f = f s := rfl
@[simp] theorem andThen_fault (e : Fault) (f : State → Host.Outcome State Fault Refusal) :
    andThen (.fault e) f = .fault e := rfl
@[simp] theorem andThen_refused (e : Refusal) (f : State → Host.Outcome State Fault Refusal) :
    andThen (.refused e) f = .refused e := rfl

theorem andThen_eq_next {o : Host.Outcome State Fault Refusal} {f : State → Host.Outcome State Fault Refusal}
    {t : State} : andThen o f = .next t ↔ ∃ m, o = .next m ∧ f m = .next t := by
  cases o <;> simp

theorem andThen_assoc (o : Host.Outcome State Fault Refusal) (f g : State → Host.Outcome State Fault Refusal) :
    andThen (andThen o f) g = andThen o fun s => andThen (f s) g := by
  cases o <;> rfl

/-- The units after a unit is put back where one stood. -/
theorem setUnit_get_self {s : State} {u : Nat} {x : CodecUnit} (y : CodecUnit) (h : s.units[u]? = some x) :
    (s.setUnit u y).units[u]? = some y := by
  obtain ⟨hu, -⟩ := List.getElem?_eq_some_iff.mp h
  simp [hu]

theorem setUnit_get_ne (s : State) {u v : Nat} (y : CodecUnit) (h : u ≠ v) :
    (s.setUnit u y).units[v]? = s.units[v]? := by
  simp [h]

@[simp] theorem finish_eq_next {s t : State} {u : Nat} {o : UnitOutcome} :
    s.finish u o = .next t ↔ ∃ y r, o = .next (y, r) ∧ t = (s.setUnit u y).deliver r := by
  rcases o with ⟨y, r⟩ | f | r <;> simp [State.finish, eq_comm]

/-- What an operation on a unit answers when it goes on. -/
theorem onUnit_eq_next {u : Nat} {f : CodecUnit → UnitOutcome} {s t : State} :
    onUnit u f s = .next t ↔
      ∃ x y r, s.units[u]? = some x ∧ f x = .next (y, r) ∧ t = (s.setUnit u y).deliver r := by
  unfold onUnit
  cases h : s.units[u]? <;> simp

theorem onUnit_of_some {u : Nat} {x : CodecUnit} (f : CodecUnit → UnitOutcome) {s : State}
    (h : s.units[u]? = some x) : onUnit u f s = s.finish u (f x) := by
  simp [onUnit, h]

theorem onUnit_of_none {u : Nat} (f : CodecUnit → UnitOutcome) {s : State} (h : s.units[u]? = none) :
    onUnit u f s = .refused (.noSuchUnit u) := by
  simp [onUnit, h]

theorem ifReady_eq_next {f : CodecUnit → UnitOutcome} {x : CodecUnit} {p : CodecUnit × Result} :
    ifReady f x = .next p ↔ x.status = .ready ∧ f x = .next p := by
  unfold ifReady
  cases h : x.status <;> simp

theorem ifReady_of_ready {f : CodecUnit → UnitOutcome} {x : CodecUnit} (h : x.status = .ready) :
    ifReady f x = f x := by
  simp [ifReady, h]

/-- What an operation on an initialised unit answers when it goes on. -/
theorem onReady_eq_next {u : Nat} {f : CodecUnit → UnitOutcome} {s t : State} :
    onReady u f s = .next t ↔
      ∃ x y r, s.units[u]? = some x ∧ x.status = .ready ∧ f x = .next (y, r) ∧ t = (s.setUnit u y).deliver r := by
  simp only [onReady, onUnit_eq_next, ifReady_eq_next, and_assoc]

/-- An operation on an initialised unit is its effect on that unit. -/
theorem onReady_of_ready {u : Nat} {x : CodecUnit} (f : CodecUnit → UnitOutcome) {s : State}
    (h : s.units[u]? = some x) (hr : x.status = .ready) : onReady u f s = s.finish u (f x) := by
  simp [onReady, onUnit, h, ifReady, hr]

/-- Why an operation on a unit is refused. -/
theorem onReady_eq_refused {u : Nat} {f : CodecUnit → UnitOutcome} {s : State} {r : Refusal} :
    onReady u f s = .refused r ↔
      (s.units[u]? = none ∧ r = .noSuchUnit u) ∨
      ∃ x, s.units[u]? = some x ∧
        ((x.status = .powerOn ∧ r = .unitNotInitialised) ∨ (x.status = .failed ∧ r = .unitInitFailed) ∨
          (x.status = .ready ∧ f x = .refused r)) := by
  unfold onReady onUnit ifReady
  cases hx : s.units[u]? with
  | none => simp [eq_comm]
  | some x =>
    cases hs : x.status <;> simp [eq_comm, hs]
    rcases f x with ⟨y, q⟩ | e | q <;> simp [eq_comm]

theorem decodeBytes_eq_execAll (u : Nat) (bs : List Byte) (s : State) :
    decodeBytes u bs s = execAll (feed u bs) s := by
  induction bs generalizing s with
  | nil => rfl
  | cons b bs ih =>
    rw [decodeBytes, show decodeBytes u bs = execAll (feed u bs) from funext ih]
    rfl

theorem execAll_append (is js : List Instr) (s : State) :
    execAll (is ++ js) s = andThen (execAll is s) (execAll js) := by
  induction is generalizing s with
  | nil => rfl
  | cons i is ih =>
    rw [List.cons_append, execAll, execAll, andThen_assoc,
      show execAll (is ++ js) = fun s => andThen (execAll is s) (execAll js) from funext ih]

end Sys2Proof.Machine
end

