-- ==== Sys2Proof/Laws/Units.lean ====
section
/-! SUPPORT. What each operation does to one unit: one lemma per meaning that says every way it goes on. -/

namespace Sys2Proof.Machine

/-! ### Loads and stores -/

theorem load_eq_some {x : CodecUnit} {off n : Nat} {bs : List Byte} :
    x.load off n = some bs ↔ x.inBuf off n ∧ bs = Memory.readSeq x.buf off n := by
  unfold CodecUnit.load
  split
  · next h => simp [h, eq_comm]
  · next h => simp [h]

theorem store_eq_some {x y : CodecUnit} {off : Nat} {bs : List Byte} :
    x.store off bs = some y ↔
      x.inBuf off bs.length ∧ y = { x with buf := Memory.writeSeq x.buf off bs } := by
  unfold CodecUnit.store
  split
  · next h => simp [h, eq_comm]
  · next h => simp [h]

theorem load_of_inBuf {x : CodecUnit} {off n : Nat} (h : x.inBuf off n) :
    x.load off n = some (Memory.readSeq x.buf off n) := if_pos h

theorem store_of_inBuf {x : CodecUnit} {off : Nat} {bs : List Byte} (h : x.inBuf off bs.length) :
    x.store off bs = some { x with buf := Memory.writeSeq x.buf off bs } := if_pos h

/-! ### The header state machine -/

/-- `hdr_step` touches `HDR` and `DS` only (R109). -/
theorem hdrStep_frame (b : Byte) (x : CodecUnit) :
    ∃ h d, hdrStep b x = { x with hdr := h, ds := d } := by
  unfold hdrStep
  split <;> (try dsimp only [head1Eval, head2Eval, head0Eval, verifyEval, lengthEval, len3Eval]) <;> (try split) <;>
    exact ⟨_, _, rfl⟩

@[simp] theorem hdrStep_cap (b : Byte) (x : CodecUnit) : (hdrStep b x).cap = x.cap := by
  obtain ⟨h, d, e⟩ := hdrStep_frame b x; rw [e]
@[simp] theorem hdrStep_status (b : Byte) (x : CodecUnit) : (hdrStep b x).status = x.status := by
  obtain ⟨h, d, e⟩ := hdrStep_frame b x; rw [e]
@[simp] theorem hdrStep_usableSpace (b : Byte) (x : CodecUnit) : (hdrStep b x).usableSpace = x.usableSpace := by
  obtain ⟨h, d, e⟩ := hdrStep_frame b x; rw [e]
@[simp] theorem hdrStep_buf (b : Byte) (x : CodecUnit) : (hdrStep b x).buf = x.buf := by
  obtain ⟨h, d, e⟩ := hdrStep_frame b x; rw [e]
@[simp] theorem hdrStep_initCount (b : Byte) (x : CodecUnit) : (hdrStep b x).initCount = x.initCount := by
  obtain ⟨h, d, e⟩ := hdrStep_frame b x; rw [e]

theorem hdrStep_head0 {b : Byte} {x : CodecUnit} (h : x.ds.state = .head0) : hdrStep b x = head0Eval b x := by
  simp only [hdrStep, h]
theorem hdrStep_head1 {b : Byte} {x : CodecUnit} (h : x.ds.state = .head1) : hdrStep b x = head1Eval b x := by
  simp only [hdrStep, h]
theorem hdrStep_head2 {b : Byte} {x : CodecUnit} (h : x.ds.state = .head2) : hdrStep b x = head2Eval b x := by
  simp only [hdrStep, h]
theorem hdrStep_verify {b : Byte} {x : CodecUnit} (h : x.ds.state = .verify) : hdrStep b x = verifyEval b x := by
  simp only [hdrStep, h]
theorem hdrStep_len0 {b : Byte} {x : CodecUnit} (h : x.ds.state = .len0) : hdrStep b x = lengthEval 0 .len1 b x := by
  simp only [hdrStep, h]
theorem hdrStep_len1 {b : Byte} {x : CodecUnit} (h : x.ds.state = .len1) : hdrStep b x = lengthEval 1 .len2 b x := by
  simp only [hdrStep, h]
theorem hdrStep_len2 {b : Byte} {x : CodecUnit} (h : x.ds.state = .len2) : hdrStep b x = lengthEval 2 .len3 b x := by
  simp only [hdrStep, h]
theorem hdrStep_len3 {b : Byte} {x : CodecUnit} (h : x.ds.state = .len3) : hdrStep b x = len3Eval b x := by
  simp only [hdrStep, h]

/-! ### The operations on one unit -/

/-- Every way `ENCODE` goes on (R85, R86). -/
theorem encodeUnit_eq_next {p : List Byte} {x y : CodecUnit} {r : Result} (h : encodeUnit p x = .next (y, r)) :
    (payloadTooLong x p.length ∧ y = x ∧ r = .encoded 0) ∨
    (¬ frameOverruns x p.length ∧
      y = { x with hdr := hdrOfFrame (checksum p) (seqLength p)
                   buf := Memory.writeSeq x.buf 0 (frameOf (checksum p) p) } ∧
      r = .encoded (BitVec.ofNat 32 (p.length + headerSize))) := by
  unfold encodeUnit at h
  split at h
  · next hl => simp at h; exact .inl ⟨hl, h.1.symm, h.2.symm⟩
  · split at h
    · cases h
    · next ho =>
      split at h
      · cases h
      · next z hz =>
        obtain ⟨-, rfl⟩ := store_eq_some.mp hz
        simp at h
        exact .inr ⟨ho, h.1.symm, h.2.symm⟩

@[simp] theorem length_frameOf (c : Byte) (p : List Byte) : (frameOf c p).length = p.length + 8 := by
  simp [frameOf, headerBytes, lengthBytes]

/-- Where the frame fits, `ENCODE` builds it (R85). -/
theorem encodeUnit_fits {p : List Byte} {x : CodecUnit} (h : p.length + headerSize ≤ x.usableSpace.toNat) :
    encodeUnit p x = .next
      ({ x with hdr := hdrOfFrame (checksum p) (seqLength p)
                buf := Memory.writeSeq x.buf 0 (frameOf (checksum p) p) },
        .encoded (BitVec.ofNat 32 (p.length + headerSize))) := by
  have h1 : ¬ payloadTooLong x p.length := by simp only [headerSize] at h; omega
  have h2 : ¬ frameOverruns x p.length := by omega
  rw [encodeUnit, if_neg h1, if_neg h2, store_of_inBuf]
  simpa [headerSize] using h

/-- Every way a payload byte goes on (R110, R112). -/
theorem payloadByte_eq_next {b : Byte} {x y : CodecUnit} {r : Result} (h : payloadByte b x = .next (y, r)) :
    ∃ z, z = CodecUnit.countByte { x with buf := Memory.write x.buf x.ds.bytesCopied.toNat b } ∧
      x.inBuf x.ds.bytesCopied.toNat 1 ∧
      ((payloadIncomplete z ∧ y = z ∧ r = .decoded .pending) ∨
        (¬ payloadIncomplete z ∧ x.inBuf 0 x.hdr.length.toNat ∧ y = z.resetDs ∧
          r = .decoded (decodeVerdict x (Memory.readSeq z.buf 0 x.hdr.length.toNat)))) := by
  unfold payloadByte at h
  split at h
  · cases h
  · next z hz =>
    obtain ⟨hin, rfl⟩ := store_eq_some.mp hz
    refine ⟨_, rfl, hin, ?_⟩
    split at h
    · next hi => simp at h; exact .inl ⟨hi, h.1.symm, h.2.symm⟩
    · next hi =>
      unfold completePayload at h
      split at h
      · cases h
      · next bs hbs =>
        obtain ⟨hin', rfl⟩ := load_eq_some.mp hbs
        simp at h
        exact .inr ⟨hi, hin', h.1.symm, h.2.symm⟩

/-- A payload byte that is not the last one (R110). -/
theorem payloadByte_incomplete {b : Byte} {x : CodecUnit} (hin : x.ds.bytesCopied.toNat < x.usableSpace.toNat)
    (h : (x.ds.bytesCopied + 1).toNat < x.hdr.length.toNat) :
    payloadByte b x = .next
      (CodecUnit.countByte { x with buf := Memory.write x.buf x.ds.bytesCopied.toNat b }, .decoded .pending) := by
  rw [payloadByte, store_of_inBuf (by simpa using hin)]
  exact if_pos h

/-- The last payload byte (R110). -/
theorem payloadByte_complete {b : Byte} {x : CodecUnit} (hin : x.ds.bytesCopied.toNat < x.usableSpace.toNat)
    (hl : x.hdr.length.toNat ≤ x.usableSpace.toNat)
    (h : x.hdr.length.toNat ≤ (x.ds.bytesCopied + 1).toNat) :
    payloadByte b x = .next
      (CodecUnit.resetDs { x with buf := Memory.write x.buf x.ds.bytesCopied.toNat b },
        .decoded (decodeVerdict x
          (Memory.readSeq (Memory.write x.buf x.ds.bytesCopied.toNat b) 0 x.hdr.length.toNat))) := by
  rw [payloadByte, store_of_inBuf (by simpa using hin)]
  simp only
  rw [if_neg (by simpa [payloadIncomplete] using h), completePayload, load_of_inBuf (by simpa using hl)]
  rfl

/-- Every way `DECODE` goes on (R110). -/
theorem decodeUnit_eq_next {b : Byte} {x y : CodecUnit} {r : Result} (h : decodeUnit b x = .next (y, r)) :
    (x.ds.state ≠ .data ∧ y = hdrStep b x ∧ r = .decoded .pending) ∨
    (x.ds.state = .data ∧ payloadByte b x = .next (y, r)) := by
  unfold decodeUnit at h
  split at h
  · next hd => exact .inr ⟨hd, h⟩
  · next hd => simp at h; exact .inl ⟨hd, h.1.symm, h.2.symm⟩

theorem decodeUnit_header {b : Byte} {x : CodecUnit} (h : x.ds.state ≠ .data) :
    decodeUnit b x = .next (hdrStep b x, .decoded .pending) := if_neg h

theorem decodeUnit_data {b : Byte} {x : CodecUnit} (h : x.ds.state = .data) :
    decodeUnit b x = payloadByte b x := if_pos h

/-- Every way `DECODE_COPY` goes on (R123). -/
theorem copyUnit_eq_next {src : List Byte} {x y : CodecUnit} {r : Result} (h : copyUnit src x = .next (y, r)) :
    (copyMismatch x src.length ∧ y = x ∧ r = .copied .mismatch) ∨
    (x.ds.state = .data ∧ src.length = x.hdr.length.toNat ∧ x.inBuf 0 src.length ∧
      y = { x.resetDs with buf := Memory.writeSeq x.buf 0 src } ∧
      r = .copied (copyVerdict x (Memory.readSeq (Memory.writeSeq x.buf 0 src) 0 x.hdr.length.toNat))) := by
  unfold copyUnit at h
  split at h
  · next hm => simp at h; exact .inl ⟨hm, h.1.symm, h.2.symm⟩
  · next hm =>
    obtain ⟨hd, hn⟩ : x.ds.state = .data ∧ src.length = x.hdr.length.toNat := by
      simpa [copyMismatch] using hm
    split at h
    · cases h
    · next z hz =>
      obtain ⟨hin, rfl⟩ := store_eq_some.mp hz
      split at h
      · cases h
      · next bs hbs =>
        obtain ⟨-, rfl⟩ := load_eq_some.mp hbs
        simp at h
        exact .inr ⟨hd, hn, hin, h.1.symm, h.2.symm⟩

/-- `DECODE_COPY` of a slice of the right length (R123). -/
theorem copyUnit_match {src : List Byte} {x : CodecUnit} (hd : x.ds.state = .data)
    (hn : src.length = x.hdr.length.toNat) (hl : x.hdr.length.toNat ≤ x.usableSpace.toNat) :
    copyUnit src x = .next
      ({ x.resetDs with buf := Memory.writeSeq x.buf 0 src },
        .copied (copyVerdict x (Memory.readSeq (Memory.writeSeq x.buf 0 src) 0 x.hdr.length.toNat))) := by
  rw [copyUnit, if_neg (by simp [copyMismatch, hd, hn]), store_of_inBuf (by simpa [hn] using hl)]
  simp only
  rw [load_of_inBuf (by simpa using hl)]
  rfl

/-- Why `ENCODE` on an initialised unit is refused: the overrun window, and nothing else (R87). -/
theorem encodeUnit_eq_refused {p : List Byte} {x : CodecUnit} {r : Refusal} (h : encodeUnit p x = .refused r) :
    ¬ payloadTooLong x p.length ∧ frameOverruns x p.length ∧ r = .encodeOverrun := by
  by_cases ho : frameOverruns x p.length
  · unfold encodeUnit at h
    split at h
    · cases h
    · next hl => cases h; exact ⟨hl, ho, rfl⟩
  · rw [encodeUnit_fits (Nat.le_of_not_lt ho)] at h; cases h

/-- Why `DECODE` on an initialised unit is refused: in `DATA`, an access outside `BUF`. -/
theorem decodeUnit_eq_refused {b : Byte} {x : CodecUnit} {r : Refusal} (h : decodeUnit b x = .refused r) :
    x.ds.state = .data ∧ r = .outsideBuffer ∧
      ¬ (x.ds.bytesCopied.toNat < x.usableSpace.toNat ∧ lengthFits x x.hdr.length) := by
  unfold decodeUnit at h
  split at h
  · next hd =>
    refine ⟨hd, ?_, ?_⟩
    · unfold payloadByte completePayload at h
      repeat' split at h
      all_goals first | exact (Host.Outcome.refused.inj h).symm | cases h
    · rintro ⟨hb, hl⟩
      by_cases hi : (x.ds.bytesCopied + 1).toNat < x.hdr.length.toNat
      · rw [payloadByte_incomplete hb hi] at h; cases h
      · rw [payloadByte_complete hb hl (Nat.le_of_not_lt hi)] at h; cases h
  · cases h

/-- Why `DECODE_COPY` on an initialised unit is refused: in `DATA`, an access outside `BUF`. -/
theorem copyUnit_eq_refused {src : List Byte} {x : CodecUnit} {r : Refusal} (h : copyUnit src x = .refused r) :
    x.ds.state = .data ∧ r = .outsideBuffer ∧ ¬ lengthFits x x.hdr.length := by
  by_cases hm : copyMismatch x src.length
  · rw [copyUnit, if_pos hm] at h; cases h
  · obtain ⟨hd, hn⟩ : x.ds.state = .data ∧ src.length = x.hdr.length.toNat := by simpa [copyMismatch] using hm
    refine ⟨hd, ?_, fun hl => ?_⟩
    · unfold copyUnit at h
      repeat' split at h
      all_goals first | exact (Host.Outcome.refused.inj h).symm | cases h
    · rw [copyUnit_match hd hn hl] at h; cases h

/-- `INIT` leaves one of two units (R71, R72). -/
theorem initUnit_cases (ils u : Nat) (x : CodecUnit) :
    (capacityOk x.cap ils ∧ initUnit ils u x = x.initialised ils) ∨
    (¬ capacityOk x.cap ils ∧ initUnit ils u x = x.initFailed u) := by
  unfold initUnit
  split
  · next h => exact .inl ⟨h, rfl⟩
  · next h => exact .inr ⟨h, rfl⟩

end Sys2Proof.Machine
end

