-- ==== Sys2Proof/Laws/Exec.lean ====
section
/-! SUPPORT. Everything an instruction can do when it goes on, said once: `UnitStep` lists every way an operation on a
unit goes on, `exec_eq_next` brings `exec` down to it, and `exec_induction` brings a relation between the states
before and after any instruction, the eight `DECODE`s of a frame header included, down to single unit steps. -/

namespace Sys2Proof.Machine

/-- Every way an operation on one unit goes on: the unit before, the unit after, the result. -/
inductive UnitStep (ils : Nat) : Instr → CodecUnit → CodecUnit → Result → Prop
  | initOk (u : Nat) (x : CodecUnit) (h : capacityOk x.cap ils) :
      UnitStep ils (.init u) x (x.initialised ils) (.usable (x.initialised ils).usableSpace)
  | initFailed (u : Nat) (x : CodecUnit) (h : ¬ capacityOk x.cap ils) :
      UnitStep ils (.init u) x (x.initFailed u) (.usable 0)
  | reset (u : Nat) (x : CodecUnit) (hr : x.status = .ready) :
      UnitStep ils (.decodeReset u) x x.resetDs .resetDone
  | encodeTooLong (u : Nat) (p : List Byte) (x : CodecUnit) (hr : x.status = .ready) (h : payloadTooLong x p.length) :
      UnitStep ils (.encode u p) x x (.encoded 0)
  | encoded (u : Nat) (p : List Byte) (x : CodecUnit) (hr : x.status = .ready) (h : ¬ frameOverruns x p.length) :
      UnitStep ils (.encode u p) x
        { x with hdr := hdrOfFrame (checksum p) (seqLength p)
                 buf := Memory.writeSeq x.buf 0 (frameOf (checksum p) p) }
        (.encoded (BitVec.ofNat 32 (p.length + headerSize)))
  | headerByte (u : Nat) (b : Byte) (x : CodecUnit) (hr : x.status = .ready) (hs : x.ds.state ≠ .data) :
      UnitStep ils (.decode u b) x (hdrStep b x) (.decoded .pending)
  | payloadByte (u : Nat) (b : Byte) (x : CodecUnit) (hr : x.status = .ready) (hs : x.ds.state = .data)
      (hb : x.inBuf x.ds.bytesCopied.toNat 1)
      (hi : (x.ds.bytesCopied + 1).toNat < x.hdr.length.toNat) :
      UnitStep ils (.decode u b) x
        (CodecUnit.countByte { x with buf := Memory.write x.buf x.ds.bytesCopied.toNat b }) (.decoded .pending)
  | lastPayloadByte (u : Nat) (b : Byte) (x : CodecUnit) (hr : x.status = .ready) (hs : x.ds.state = .data)
      (hb : x.inBuf x.ds.bytesCopied.toNat 1) (hl : x.inBuf 0 x.hdr.length.toNat)
      (hi : ¬ (x.ds.bytesCopied + 1).toNat < x.hdr.length.toNat) :
      UnitStep ils (.decode u b) x
        (CodecUnit.resetDs { x with buf := Memory.write x.buf x.ds.bytesCopied.toNat b })
        (.decoded (decodeVerdict x
          (Memory.readSeq (Memory.write x.buf x.ds.bytesCopied.toNat b) 0 x.hdr.length.toNat)))
  | findByte (u : Nat) (b : Byte) (x : CodecUnit) (hr : x.status = .ready) (hs : x.ds.state ≠ .data) :
      UnitStep ils (.decodeFind u b) x (hdrStep b x) (.found (foundLength (hdrStep b x)))
  | findInData (u : Nat) (b : Byte) (x : CodecUnit) (hr : x.status = .ready) (hs : x.ds.state = .data) :
      UnitStep ils (.decodeFind u b) x x (.found x.hdr.length)
  | copyMismatch (u : Nat) (src : List Byte) (x : CodecUnit) (hr : x.status = .ready)
      (h : copyMismatch x src.length) :
      UnitStep ils (.decodeCopy u src) x x (.copied .mismatch)
  | copied (u : Nat) (src : List Byte) (x : CodecUnit) (hr : x.status = .ready) (hs : x.ds.state = .data)
      (hn : src.length = x.hdr.length.toNat) (hb : x.inBuf 0 src.length) :
      UnitStep ils (.decodeCopy u src) x { x.resetDs with buf := Memory.writeSeq x.buf 0 src }
        (.copied (copyVerdict x (Memory.readSeq (Memory.writeSeq x.buf 0 src) 0 x.hdr.length.toNat)))

theorem execInit_eq_next {u : Nat} {s t : State} (h : execInit u s = .next t) :
    ∃ x y r, s.units[u]? = some x ∧ UnitStep s.ils (.init u) x y r ∧ t = (s.setUnit u y).deliver r := by
  obtain ⟨x, y, r, hx, hf, rfl⟩ := onUnit_eq_next.mp h
  simp only [Host.Outcome.next.injEq, Prod.mk.injEq] at hf
  obtain ⟨rfl, rfl⟩ := hf
  refine ⟨x, _, _, hx, ?_, rfl⟩
  rcases initUnit_cases s.ils u x with ⟨hc, e⟩ | ⟨hc, e⟩
  · rw [e]; exact .initOk u x hc
  · rw [e]; exact .initFailed u x hc

theorem execDecodeReset_eq_next {u : Nat} {s t : State} (h : execDecodeReset u s = .next t) :
    ∃ x y r, s.units[u]? = some x ∧ UnitStep s.ils (.decodeReset u) x y r ∧ t = (s.setUnit u y).deliver r := by
  obtain ⟨x, y, r, hx, hr, hf, rfl⟩ := onReady_eq_next.mp h
  simp only [Host.Outcome.next.injEq, Prod.mk.injEq] at hf
  obtain ⟨rfl, rfl⟩ := hf
  exact ⟨x, _, _, hx, .reset u x hr, rfl⟩

theorem execEncode_eq_next {u : Nat} {p : List Byte} {s t : State} (h : execEncode u p s = .next t) :
    ∃ x y r, s.units[u]? = some x ∧ UnitStep s.ils (.encode u p) x y r ∧ t = (s.setUnit u y).deliver r := by
  obtain ⟨x, y, r, hx, hr, hf, rfl⟩ := onReady_eq_next.mp h
  refine ⟨x, y, r, hx, ?_, rfl⟩
  rcases encodeUnit_eq_next hf with ⟨hl, rfl, rfl⟩ | ⟨ho, rfl, rfl⟩
  · exact .encodeTooLong u p _ hr hl
  · exact .encoded u p x hr ho

theorem execDecode_eq_next {u : Nat} {b : Byte} {s t : State} (h : execDecode u b s = .next t) :
    ∃ x y r, s.units[u]? = some x ∧ UnitStep s.ils (.decode u b) x y r ∧ t = (s.setUnit u y).deliver r := by
  obtain ⟨x, y, r, hx, hr, hf, rfl⟩ := onReady_eq_next.mp h
  refine ⟨x, y, r, hx, ?_, rfl⟩
  rcases decodeUnit_eq_next hf with ⟨hs, rfl, rfl⟩ | ⟨hs, hp⟩
  · exact .headerByte u b x hr hs
  · obtain ⟨z, rfl, hb, ⟨hi, rfl, rfl⟩ | ⟨hi, hl, rfl, rfl⟩⟩ := payloadByte_eq_next hp
    · exact .payloadByte u b x hr hs hb hi
    · exact .lastPayloadByte u b x hr hs hb hl hi

theorem execDecodeFind_eq_next {u : Nat} {b : Byte} {s t : State} (h : execDecodeFind u b s = .next t) :
    ∃ x y r, s.units[u]? = some x ∧ UnitStep s.ils (.decodeFind u b) x y r ∧ t = (s.setUnit u y).deliver r := by
  obtain ⟨x, y, r, hx, hr, hf, rfl⟩ := onReady_eq_next.mp h
  simp only [Host.Outcome.next.injEq, Prod.mk.injEq] at hf
  obtain ⟨rfl, rfl⟩ := hf
  refine ⟨x, _, _, hx, ?_, rfl⟩
  by_cases hs : x.ds.state = .data
  · simp only [findUnit, hs, if_true, foundLength]; exact .findInData u b x hr hs
  · simp only [findUnit, hs, if_false]; exact .findByte u b x hr hs

theorem execDecodeCopy_eq_next {u : Nat} {src : List Byte} {s t : State} (h : execDecodeCopy u src s = .next t) :
    ∃ x y r, s.units[u]? = some x ∧ UnitStep s.ils (.decodeCopy u src) x y r ∧ t = (s.setUnit u y).deliver r := by
  obtain ⟨x, y, r, hx, hr, hf, rfl⟩ := onReady_eq_next.mp h
  refine ⟨x, y, r, hx, ?_, rfl⟩
  rcases copyUnit_eq_next hf with ⟨hm, rfl, rfl⟩ | ⟨hs, hn, hb, rfl, rfl⟩
  · exact .copyMismatch u src _ hr hm
  · exact .copied u src x hr hs hn hb

/-- Everything an instruction can do when it goes on: it touches no unit and only gives a result, or it takes one step
on its unit, or it is a frame header, which is the `DECODE`s of its eight bytes. -/
theorem exec_eq_next {i : Instr} {s t : State} (h : exec i s = .next t) :
    (i.unit? = none ∧ ∃ r, t = s.deliver r) ∨
    (∃ u x y r, i.unit? = some u ∧ s.units[u]? = some x ∧ UnitStep s.ils i x y r ∧
      t = (s.setUnit u y).deliver r) ∨
    (∃ u c n, i = .frameHeader u c n ∧ decodeBytes u (headerBytes c n) s = .next t) := by
  cases i with
  | layoutSize => exact .inl ⟨rfl, _, (Host.Outcome.next.inj h).symm⟩
  | checksum bs => exact .inl ⟨rfl, _, (Host.Outcome.next.inj h).symm⟩
  | init u =>
    obtain ⟨x, y, r, hx, hu, rfl⟩ := execInit_eq_next h
    exact .inr (.inl ⟨u, x, y, r, rfl, hx, hu, rfl⟩)
  | decodeReset u =>
    obtain ⟨x, y, r, hx, hu, rfl⟩ := execDecodeReset_eq_next h
    exact .inr (.inl ⟨u, x, y, r, rfl, hx, hu, rfl⟩)
  | encode u p =>
    obtain ⟨x, y, r, hx, hu, rfl⟩ := execEncode_eq_next h
    exact .inr (.inl ⟨u, x, y, r, rfl, hx, hu, rfl⟩)
  | decode u b =>
    obtain ⟨x, y, r, hx, hu, rfl⟩ := execDecode_eq_next h
    exact .inr (.inl ⟨u, x, y, r, rfl, hx, hu, rfl⟩)
  | decodeFind u b =>
    obtain ⟨x, y, r, hx, hu, rfl⟩ := execDecodeFind_eq_next h
    exact .inr (.inl ⟨u, x, y, r, rfl, hx, hu, rfl⟩)
  | decodeCopy u src =>
    obtain ⟨x, y, r, hx, hu, rfl⟩ := execDecodeCopy_eq_next h
    exact .inr (.inl ⟨u, x, y, r, rfl, hx, hu, rfl⟩)
  | frameHeader u c n => exact .inr (.inr ⟨u, c, n, rfl, h⟩)

/-- A relation between states that is reflexive and transitive and holds of every single unit step of the bytes holds
of the bytes decoded in order. -/
theorem decodeBytes_induction {R : State → State → Prop} (hrefl : ∀ s, R s s)
    (htrans : ∀ s m t, R s m → R m t → R s t) {u : Nat}
    (hstep : ∀ (b : Byte) (s : State) (x y : CodecUnit) (r : Result), s.units[u]? = some x →
      UnitStep s.ils (.decode u b) x y r → R s ((s.setUnit u y).deliver r))
    {bs : List Byte} {s t : State} (h : decodeBytes u bs s = .next t) : R s t := by
  induction bs generalizing s with
  | nil => cases h; exact hrefl _
  | cons b bs ih =>
    obtain ⟨m, hm, ht⟩ := andThen_eq_next.mp h
    obtain ⟨x, y, r, hx, hu, rfl⟩ := execDecode_eq_next hm
    exact htrans _ _ _ (hstep b s x y r hx hu) (ih ht)

/-- A relation between the states before and after an instruction: it is enough that it is reflexive and transitive,
that delivering a result keeps it, and that it holds of every unit step of the instruction, and of a `DECODE` for a
frame header. -/
theorem exec_induction {R : State → State → Prop} (hrefl : ∀ s, R s s)
    (htrans : ∀ s m t, R s m → R m t → R s t) {i : Instr}
    (hpure : ∀ (s : State) (r : Result), i.unit? = none → R s (s.deliver r))
    (hstep : ∀ (j : Instr) (u : Nat) (s : State) (x y : CodecUnit) (r : Result),
      (j = i ∨ (∃ c n, i = .frameHeader u c n) ∧ ∃ b, j = .decode u b) → i.unit? = some u →
      s.units[u]? = some x → UnitStep s.ils j x y r → R s ((s.setUnit u y).deliver r))
    {s t : State} (h : exec i s = .next t) : R s t := by
  rcases exec_eq_next h with ⟨hn, r, rfl⟩ | ⟨u, x, y, r, hu, hx, hs, rfl⟩ | ⟨u, c, n, rfl, ht⟩
  · exact hpure s r hn
  · exact hstep i u s x y r (.inl rfl) hu hx hs
  · exact decodeBytes_induction hrefl htrans
      (fun b s x y r hx hs => hstep _ u s x y r (.inr ⟨⟨c, n, rfl⟩, b, rfl⟩) rfl hx hs) ht

end Sys2Proof.Machine
end

