-- ==== Sys2Proof/Laws/PerInstr.lean ====
section
/-! SUPPORT. A statement about every instruction as syntax, made constructor by constructor: its port item carries the
unit it acts on, and no unit where it acts on none (30_encoding.md R57, R58). -/

namespace Sys2Proof.Laws.UnitCarried

/-- The port item of an instruction names the instruction's unit (R57, R58). -/
def Statement (i : Instr) : Prop := (Sys2Proof.encode i).unit? = i.unit?

theorem layoutSize : Statement .layoutSize := rfl
theorem init (u : Nat) : Statement (.init u) := rfl
theorem decodeReset (u : Nat) : Statement (.decodeReset u) := rfl
theorem checksum (s : List Byte) : Statement (.checksum s) := rfl
theorem encode (u : Nat) (p : List Byte) : Statement (.encode u p) := rfl
theorem decode (u : Nat) (b : Byte) : Statement (.decode u b) := rfl
theorem decodeFind (u : Nat) (b : Byte) : Statement (.decodeFind u b) := rfl
theorem decodeCopy (u : Nat) (src : List Byte) : Statement (.decodeCopy u src) := rfl
theorem frameHeader (u : Nat) (c : Byte) (n : U32) : Statement (.frameHeader u c n) := rfl

end Sys2Proof.Laws.UnitCarried
end

