-- ==== Sys2Proof/Tests/Slice0.lean ====
section
/-! SUPPORT. The model's own tests. Expected values are those of 95_test_vectors.md (the vector is named) or are worked
from the rule named; then, for every obligation with hypotheses, a concrete state and operands that meet them all. -/

namespace Sys2Proof.Tests

open Sys2Proof Sys2Proof.Machine

/-! ### Well-formedness: an ill-formed term for each check -/

/-- A byte sequence of every length: the tests below need one of 2^32 bytes and one of 2^32 - 1. -/
theorem test_bytes_of_length (n : Nat) : ∃ s : List Byte, s.length = n := ⟨List.replicate n 0, List.length_replicate⟩

/-- R61: a sequence of 2^32 bytes is too long for `CHECKSUM`, `ENCODE` and `DECODE_COPY`. -/
theorem test_wf_refuses_long_operand :
    ∃ s : List Byte, s.length = 4294967296 ∧ (Instr.checksum s).wf = false ∧ (Instr.encode 0 s).wf = false ∧
      (Instr.decodeCopy 0 s).wf = false ∧ decode (.command ⟨0b0011, none, .seq s⟩) = .error .operandTooLong := by
  obtain ⟨s, h⟩ := test_bytes_of_length 4294967296
  have hs : ¬ seqOk s := by rw [seqOk, h]; decide
  exact ⟨s, h, decide_eq_false hs, decide_eq_false hs, decide_eq_false hs, if_neg hs⟩

/-! ### Decoding, bit by bit (R50, R58) -/

theorem test_decode_layoutSize : decode (.command ⟨0b0000, none, .none⟩) = .ok .layoutSize := by rfl
theorem test_decode_init : decode (.command ⟨0b0001, some 0, .none⟩) = .ok (.init 0) := by rfl
theorem test_decode_decodeReset : decode (.command ⟨0b0010, some 1, .none⟩) = .ok (.decodeReset 1) := by rfl
theorem test_decode_checksum : decode (.command ⟨0b0011, none, .seq [0xA7]⟩) = .ok (.checksum [0xA7]) := by rfl
theorem test_decode_encode :
    decode (.command ⟨0b0100, some 0, .seq [0x41, 0x42]⟩) = .ok (.encode 0 [0x41, 0x42]) := by rfl
theorem test_decode_decode : decode (.command ⟨0b0101, some 1, .byte 0x4C⟩) = .ok (.decode 1 0x4C) := by rfl
theorem test_decode_decodeFind : decode (.command ⟨0b0110, some 1, .byte 0x4D⟩) = .ok (.decodeFind 1 0x4D) := by rfl
theorem test_decode_decodeCopy : decode (.command ⟨0b0111, some 1, .seq []⟩) = .ok (.decodeCopy 1 []) := by rfl

/-- R50, T26: `2C 01 00 00` is the length 300, least significant byte first. -/
theorem test_decode_frameHeader :
    decode (.wire 0 [0x4C, 0x4D, 0x58, 0x85, 0x2C, 0x01, 0x00, 0x00]) = .ok (.frameHeader 0 0x85 300) := by rfl

/-- R57, R59: the reserved codes and wrong fields, each refused by name. -/
theorem test_decode_refuses :
    decode (.command ⟨0b1000, none, .none⟩) = .error (.reservedCode 0b1000) ∧
    decode (.command ⟨0b1111, some 0, .byte 0⟩) = .error (.reservedCode 0b1111) ∧
    decode (.command ⟨0b0101, none, .byte 0⟩) = .error .wrongUnitField ∧
    decode (.command ⟨0b0000, some 0, .none⟩) = .error .wrongUnitField ∧
    decode (.command ⟨0b0101, some 0, .none⟩) = .error .wrongOperandForm ∧
    decode (.wire 0 [0x4C, 0x4D, 0x58]) = .error .wrongHeaderSize ∧
    decode (.wire 0 [0x4C, 0x4D, 0x4C, 0, 0, 0, 0, 0]) = .error .wrongMarker := by
  refine ⟨rfl, rfl, rfl, rfl, rfl, rfl, rfl⟩

/-- The opcode table's nine rows as words (log entry 3). -/
theorem test_table_words :
    decodeTableWord 8 0 = some .layoutSize ∧ decodeTableWord 8 1 = some (.init 0) ∧
    decodeTableWord 8 2 = some (.decodeReset 0) ∧ decodeTableWord 8 3 = some (.checksum []) ∧
    decodeTableWord 8 4 = some (.encode 0 []) ∧ decodeTableWord 8 5 = some (.decode 0 0) ∧
    decodeTableWord 8 6 = some (.decodeFind 0 0) ∧ decodeTableWord 8 7 = some (.decodeCopy 0 []) ∧
    decodeTableWord 64 0x000000031F584D4C = some (.frameHeader 0 0x1F 3) ∧ decodeTableWord 8 8 = none := by
  decide

/-! ### States for the tests -/

/-- A unit after a successful `INIT` with `ILS = 32` ("fresh", 95_test_vectors.md). -/
def fresh (cap : U32) : CodecUnit := (CodecUnit.powerOn cap).initialised 32

/-- A machine with `ILS = 32` and these units. -/
def machine (units : List CodecUnit) : State := ⟨32, units, [], []⟩

/-- A unit in the state `r` with the marker seen: checksum byte, length, bytes copied, buffer. -/
def inFrame (x : CodecUnit) (r : RxState) (c : Byte) (n bc : U32) (buf : Memory) : CodecUnit :=
  { x with hdr := ⟨0x4C, 0x4D, 0x58, c, n⟩, ds := ⟨r, bc⟩, buf := buf }

/-- A fresh unit in the state `r` with nothing received yet. -/
def inState (r : RxState) : CodecUnit := { fresh 96 with ds := ⟨r, 0⟩ }

/-- T1 after line 8: the header of the "ABC" frame received. -/
def headerSeen : CodecUnit := inFrame (fresh 96) .data 0x1F 3 0 []

/-- T1 after line 10: two of the three payload bytes received. -/
def lastByteDue : CodecUnit := inFrame (fresh 96) .data 0x1F 3 2 [(0, 0x41), (1, 0x42)]

/-- T33: the header of an empty frame with the right checksum received. -/
def emptyFrame : CodecUnit := inFrame (fresh 96) .data 0x59 0 0 []

/-- Two fresh units. -/
def two : State := machine [fresh 96, fresh 96]

/-- What an operation gave the host, when it went on. -/
def gave : Host.Outcome State Fault Refusal → Option (List Result)
  | .next t => some t.results
  | .fault _ => none
  | .refused _ => none

/-- A unit after an operation that went on. -/
def unitAfter (u : Nat) : Host.Outcome State Fault Refusal → Option CodecUnit
  | .next t => t.units[u]?
  | .fault _ => none
  | .refused _ => none

/-- Why an operation was refused. -/
def refusal : Host.Outcome State Fault Refusal → Option Refusal
  | .next _ => none
  | .fault _ => none
  | .refused r => some r

/-! ### One step each -/

/-- T10, and R150: the parameters of 95_test_vectors.md; memory in canonical form at reset. -/
theorem test_layoutSize_at_reset :
    gave (exec .layoutSize State.reset) = some [.layoutSize 32] ∧
    (∀ x ∈ State.reset.units, Memory.wf x.buf) := by decide

/-- T11: the smallest usable unit, and the largest that fails. -/
theorem test_init_bounds :
    gave (exec (.init 0) (State.powerOn 32 [33])) = some [.usable 1] ∧
    gave (exec (.init 0) (State.powerOn 32 [32])) = some [.usable 0] ∧
    gave (exec (.init 0) (State.powerOn 0 [0])) = some [.usable 0] := by decide

/-- T12: `INIT` again clears the header and the buffer. -/
theorem test_init_again :
    unitAfter 0 (exec (.init 0) (machine [inFrame (fresh 96) .head0 0x1F 3 0 [(0, 0x41), (1, 0x42), (2, 0x43)]])) =
      some { fresh 96 with initCount := 2 } := by decide

/-- T13: only `DS` is written. -/
theorem test_decodeReset_mid_payload :
    unitAfter 0 (exec (.decodeReset 0) (machine [inFrame (fresh 96) .data 0xA8 5 2 [(0, 0x41), (1, 0x42)]])) =
      some (inFrame (fresh 96) .head0 0xA8 5 0 [(0, 0x41), (1, 0x42)]) := by decide

/-- T20: "ABC", the empty sequence, a sum that reduces to 0; legal before any `INIT` (T51). -/
theorem test_checksum :
    gave (exec (.checksum [0x41, 0x42, 0x43]) State.reset) = some [.checksum 0x1F] ∧
    gave (exec (.checksum []) State.reset) = some [.checksum 0x59] ∧
    gave (exec (.checksum [0xA7]) State.reset) = some [.checksum 0x00] := by decide

/-- E1, T25: the frame of "ABC". -/
theorem test_encode_abc :
    gave (exec (.encode 0 [0x41, 0x42, 0x43]) two) = some [.encoded 11] ∧
    unitAfter 0 (exec (.encode 0 [0x41, 0x42, 0x43]) two) = some { fresh 96 with
      hdr := ⟨0x4C, 0x4D, 0x58, 0x1F, 3⟩
      buf := [(0, 0x4C), (1, 0x4D), (2, 0x58), (3, 0x1F), (4, 0x03), (8, 0x41), (9, 0x42), (10, 0x43)] } := by decide

/-- T28: with 4 usable bytes every payload of up to 4 bytes is refused, and 5 bytes give 0. -/
theorem test_encode_window :
    refusal (exec (.encode 0 []) (machine [fresh 36])) = some .encodeOverrun ∧
    refusal (exec (.encode 0 [1, 2, 3, 4]) (machine [fresh 36])) = some .encodeOverrun ∧
    gave (exec (.encode 0 [1, 2, 3, 4, 5]) (machine [fresh 36])) = some [.encoded 0] := by decide

/-- T2: marker search, mismatching bytes included: the state and the three marker registers afterwards. -/
theorem test_decode_marker_search :
    (hdrStep 0x4D (fresh 96)).hdr.mark0 = 0x4D ∧ (hdrStep 0x4D (fresh 96)).ds.state = .head0 ∧
    (hdrStep 0x4C (hdrStep 0x4C (fresh 96))).hdr = ⟨0x4C, 0x4C, 0, 0, 0⟩ ∧
    (hdrStep 0x4C (hdrStep 0x4C (fresh 96))).ds.state = .head1 ∧
    (hdrStep 0x4C (hdrStep 0x4D (hdrStep 0x4C (fresh 96)))).hdr = ⟨0x4C, 0x4D, 0x4C, 0, 0⟩ ∧
    (hdrStep 0x4C (hdrStep 0x4D (hdrStep 0x4C (fresh 96)))).ds.state = .head1 ∧
    (hdrStep 0x4D (hdrStep 0x4D (hdrStep 0x4C (fresh 96)))).hdr = ⟨0x4D, 0x4D, 0x4D, 0, 0⟩ ∧
    (hdrStep 0x4D (hdrStep 0x4D (hdrStep 0x4C (fresh 96)))).ds.state = .head0 ∧
    (hdrStep 0x58 (hdrStep 0x4D (hdrStep 0x4C (fresh 96)))).ds.state = .verify := by decide

/-- T1 line 11, T30, T33: the last payload byte: success, checksum failure, and the byte an empty frame swallows. -/
theorem test_decode_completes :
    gave (exec (.decode 0 0x43) (machine [lastByteDue])) = some [.decoded (.success 3)] ∧
    unitAfter 0 (exec (.decode 0 0x43) (machine [lastByteDue])) =
      some (inFrame (fresh 96) .head0 0x1F 3 0 [(0, 0x41), (1, 0x42), (2, 0x43)]) ∧
    gave (exec (.decode 0 0x44) (machine [lastByteDue])) = some [.decoded .checksumFailure] ∧
    gave (exec (.decode 0 0x4C) (machine [emptyFrame])) = some [.decoded (.success 0)] ∧
    unitAfter 0 (exec (.decode 0 0x4C) (machine [emptyFrame])) =
      some (inFrame (fresh 96) .head0 0x59 0 0 [(0, 0x4C)]) := by decide

/-- T5, T6: the `LEN3` bound: 64 is accepted, 65 and `80000000` are not, and an oversize `4C` is not examined again. -/
theorem test_decodeFind_len3 :
    gave (exec (.decodeFind 0 0) (machine [inFrame (fresh 96) .len3 0 64 0 []])) = some [.found 64] ∧
    gave (exec (.decodeFind 0 0) (machine [inFrame (fresh 96) .len3 0 65 0 []])) = some [.found 0] ∧
    unitAfter 0 (exec (.decodeFind 0 0x80) (machine [inFrame (fresh 96) .len3 0 0 0 []])) =
      some (inFrame (fresh 96) .head0 0 0x80000000 0 []) ∧
    unitAfter 0 (exec (.decodeFind 0 0x4C) (machine [inFrame (fresh 96) .len3 0 0 0 []])) =
      some (inFrame (fresh 96) .head0 0 0x4C000000 0 []) := by decide

/-- T41: `DECODE_FIND` in `DATA` gives the length again and stores nothing. -/
theorem test_decodeFind_in_data :
    gave (exec (.decodeFind 0 0x41) (machine [headerSeen])) = some [.found 3] ∧
    unitAfter 0 (exec (.decodeFind 0 0x41) (machine [headerSeen])) = some headerSeen := by decide

/-- T40, T43, T45: the slice copied; a wrong byte copied all the same; bytes already copied count for nothing. -/
theorem test_decodeCopy_completes :
    unitAfter 0 (exec (.decodeCopy 0 [0x41, 0x42, 0x43]) (machine [headerSeen])) =
      some (inFrame (fresh 96) .head0 0x1F 3 0 [(0, 0x41), (1, 0x42), (2, 0x43)]) ∧
    gave (exec (.decodeCopy 0 [0x41, 0x42, 0x43]) (machine [lastByteDue])) = some [.copied .success] ∧
    gave (exec (.decodeCopy 0 [0x41, 0x42, 0x44]) (machine [headerSeen])) = some [.copied .checksumFailure] ∧
    unitAfter 0 (exec (.decodeCopy 0 [0x41, 0x42, 0x44]) (machine [headerSeen])) =
      some (inFrame (fresh 96) .head0 0x1F 3 0 [(0, 0x41), (1, 0x42), (2, 0x44)]) := by decide

/-- T42, T44: short, long, wrong state; an empty slice for an empty frame. -/
theorem test_decodeCopy_mismatch :
    gave (exec (.decodeCopy 0 [0x41, 0x42]) (machine [headerSeen])) = some [.copied .mismatch] ∧
    unitAfter 0 (exec (.decodeCopy 0 [0x41, 0x42, 0x43, 0x44]) (machine [headerSeen])) = some headerSeen ∧
    gave (exec (.decodeCopy 0 []) two) = some [.copied .mismatch] ∧
    gave (exec (.decodeCopy 0 []) (machine [emptyFrame])) = some [.copied .success] := by decide

/-- T1 lines 1 to 8: the header of the "ABC" frame, eight results of 0 and the unit ready for payload. -/
theorem test_frameHeader :
    gave (exec (.frameHeader 1 0x1F 3) two) = some (List.replicate 8 (.decoded .pending)) ∧
    unitAfter 1 (exec (.frameHeader 1 0x1F 3) two) = some headerSeen := by decide

/-- T51 and R59: refused before `INIT`, and for a unit that is not there. -/
theorem test_refused :
    exec (.decode 0 0x4C) State.reset = .refused .unitNotInitialised ∧
    exec (.decode 2 0x4C) State.reset = .refused (.noSuchUnit 2) := ⟨rfl, rfl⟩

/-- R6: the word placed for the step is what the step runs. -/
theorem test_fetch_word_runs :
    step (State.reset.withFetchWord 8 1) = exec (.init 0) State.reset ∧
    step (two.withFetchWord 64 0x000000031F584D4C) = exec (.frameHeader 0 0x1F 3) two := ⟨rfl, rfl⟩

/-! ### Witnesses: states and operands that meet the hypotheses of an obligation, all together -/

/-- The longest operand R61 allows, and one instruction of every other form. -/
theorem witness_DecodeOfEncodeIsTheInstruction :
    (∃ s : List Byte, s.length = 4294967295 ∧ (Instr.checksum s).wf = true ∧ (Instr.encode 0 s).wf = true ∧
      (Instr.decodeCopy 0 s).wf = true) ∧
    Instr.layoutSize.wf = true ∧ (Instr.init 5).wf = true ∧ (Instr.decodeReset 5).wf = true ∧
    (Instr.decode 5 0xFF).wf = true ∧ (Instr.decodeFind 5 0xFF).wf = true ∧
    (Instr.frameHeader 5 0xFF 0xFFFFFFFF).wf = true := by
  obtain ⟨s, h⟩ := test_bytes_of_length 4294967295
  have hs : seqOk s := by rw [seqOk, h]; decide
  exact ⟨⟨s, h, decide_eq_true hs, decide_eq_true hs, decide_eq_true hs⟩, rfl, rfl, rfl, rfl, rfl, rfl⟩

theorem witness_EncodeOfDecodeIsTheItem :
    decode (.wire 3 [0x4C, 0x4D, 0x58, 0xFF, 0xFF, 0xFF, 0xFF, 0xFF]) = .ok (.frameHeader 3 0xFF 0xFFFFFFFF) ∧
    decode (.command ⟨0b0000, none, .none⟩) = .ok .layoutSize ∧
    decode (.command ⟨0b0111, some 9, .seq [0xFF]⟩) = .ok (.decodeCopy 9 [0xFF]) := ⟨rfl, rfl, rfl⟩

theorem witness_LengthFieldIsLittleEndian :
    (0 < 4 ∧ 3 < 4) ∧ (inState .len0).hdr.length = 0 ∧ (inState .len0).ds.state = .len0 ∧
    lengthBytes 0xFF000102 = [0x02, 0x01, 0x00, 0xFF] := by decide

theorem witness_StateCodesNameNineStates : 9 ≤ (9 : BitVec 4).toNat ∧ 9 ≤ (15 : BitVec 4).toNat := by decide

theorem witness_StepRunsTheDecodedInstruction :
    ({ two with port := [encode (.decode 0 0x4C), encode .layoutSize] } : State).port =
      encode (.decode 0 0x4C) :: [encode .layoutSize] ∧
    decode (encode (.decode 0 0x4C)) = .ok (.decode 0 0x4C) := ⟨rfl, rfl⟩

theorem witness_NothingIssuedNothingChanges : two.port = [] := rfl

/-- The codes `1000` and `1111`; the first index that is no unit. -/
theorem witness_ReservedCodesAndAbsentUnitsRefused :
    (({ two with port := [.command ⟨8, none, .none⟩] } : State).port = .command ⟨8, none, .none⟩ :: [] ∧
      8 ≤ (8 : BitVec 4).toNat) ∧
    (({ two with port := [.command ⟨15, some 0, .byte 1⟩] } : State).port = .command ⟨15, some 0, .byte 1⟩ :: [] ∧
      8 ≤ (15 : BitVec 4).toNat) ∧
    (Instr.init 2).unit? = some 2 ∧ two.units.length ≤ 2 := by decide

theorem witness_PortRunsOperationsInOrder :
    (∀ i ∈ [Instr.init 0, .decode 0 0x4C, .frameHeader 1 0 0], i.wf = true) ∧
    ({ two with port := [Instr.init 0, .decode 0 0x4C, .frameHeader 1 0 0].map encode } : State).port =
      [Instr.init 0, .decode 0 0x4C, .frameHeader 1 0 0].map encode := by
  refine ⟨?_, rfl⟩; decide

theorem witness_EachOperationDeliversItsResult :
    (∃ t, exec (.decode 0 0x4C) two = .next t) ∧ ∃ t, exec (.frameHeader 0 0 0) two = .next t := ⟨⟨_, rfl⟩, _, rfl⟩

theorem witness_ParametersNeverChange : ∃ t, step { two with port := [encode (.init 0)] } = .next t := ⟨_, rfl⟩

theorem witness_PowerOnIsSound : [(96 : U32)] ≠ [] := by decide

/-- A unit in mid-payload, and a failed one. -/
theorem witness_StepKeepsSound :
    ({ machine [lastByteDue, (CodecUnit.powerOn 96)] with port := [encode (.decode 0 0x43)] } : State).Sound ∧
    ∃ t, step { machine [lastByteDue, CodecUnit.powerOn 96] with port := [encode (.decode 0 0x43)] } = .next t :=
  ⟨by decide, _, rfl⟩

theorem witness_SoundStatesNeverFault :
    (machine [headerSeen, emptyFrame, lastByteDue, inState .len3, CodecUnit.powerOn 0]).Sound ∧
    ({ machine [CodecUnit.powerOn 96] with port := [encode (.decode 0 1)] } : State).Sound ∧
    ∃ r, step { machine [CodecUnit.powerOn 96] with port := [encode (.decode 0 1)] } = .refused r :=
  ⟨by decide, by decide, _, rfl⟩

theorem witness_OneDirectionKeepsHeaderItems :
    (machine [headerSeen, fresh 96]).HeadersOk ∧
    (machine [headerSeen, fresh 96]).oneDirection (.encode 1 [0x41]) ∧
    (∃ t, exec (.encode 1 [0x41]) (machine [headerSeen, fresh 96]) = .next t) := by
  refine ⟨by decide, ?_, _, rfl⟩
  rintro u p x h hx
  cases h
  cases hx
  rfl

theorem witness_MemoryReadsWhatWasWritten :
    Memory.wf [(0, 0x41), (2, 0x43)] ∧ (∀ a, Memory.read [(0, 0x41)] a = Memory.read [(0, 0x41)] a) :=
  ⟨by decide, fun _ => rfl⟩

theorem witness_LayoutSizeReturnsIls : ∃ t, exec (.decode 0 0x4C) two = .next t := ⟨_, rfl⟩

/-- The smallest capacity that `INIT` accepts, with `ILS = 32`. -/
theorem witness_InitMakesTheUnitReady :
    (State.powerOn 32 [33]).units[0]? = some (CodecUnit.powerOn 33) ∧
    (State.powerOn 32 [33]).ils + 1 ≤ (CodecUnit.powerOn 33).cap.toNat ∧ 0 + 1 ≤ 33 - 32 := by decide

/-- The largest capacity that `INIT` does not accept, with `ILS = 32`. -/
theorem witness_FailedInitLeavesTheUnitUnusable :
    (State.powerOn 32 [32]).units[0]? = some (CodecUnit.powerOn 32) ∧
    (CodecUnit.powerOn 32).cap.toNat ≤ (State.powerOn 32 [32]).ils ∧
    (Instr.decode 0 0).unit? = some 0 ∧ Instr.decode 0 0 ≠ .init 0 := by decide

theorem witness_DecodeResetWritesDsOnly :
    two.isReady 0 (fresh 96) ∧ (fresh 96).ds = ⟨.head0, 0⟩ ∧ (∃ t, exec (.decodeReset 0) two = .next t) ∧
    (machine [lastByteDue]).isReady 0 lastByteDue := ⟨by decide, rfl, ⟨_, rfl⟩, by decide⟩

theorem witness_UnreadyUnitsRefuseAllButInit :
    State.reset.units[1]? = some (CodecUnit.powerOn 96) ∧ (Instr.encode 1 []).unit? = some 1 ∧
    Instr.encode 1 [] ≠ .init 1 ∧ (CodecUnit.powerOn 96).status = .powerOn ∧
    (machine [(CodecUnit.powerOn 32).initFailed 0]).units[0]? = some ((CodecUnit.powerOn 32).initFailed 0) ∧
    (Instr.decodeReset 0).unit? = some 0 ∧ Instr.decodeReset 0 ≠ .init 0 ∧
    ((CodecUnit.powerOn 32).initFailed 0).status = .failed :=
  ⟨rfl, rfl, by decide, rfl, rfl, rfl, by decide, rfl⟩

/-- T20: the last byte of "ABC" changed; "CBA" is "ABC" in another order. -/
theorem witness_ChecksumLaws :
    [(0x41 : Byte), 0x42, 0x43].Perm [0x43, 0x42, 0x41] ∧ 2 < [(0x41 : Byte), 0x42, 0x43].length ∧
    (0x44 : Byte) ≠ [0x41, 0x42, 0x43][2] := by decide

theorem witness_ChecksumOperationIsPure : [(0x41 : Byte)].length < 2 ^ 32 := by decide

/-- T25: a 56-byte payload fills 64 usable bytes exactly; the empty payload. -/
theorem witness_EncodeBuildsTheFrame :
    two.Sound ∧ two.isReady 0 (fresh 96) ∧ (List.replicate 56 (0xAA : Byte)).length + 8 ≤ (fresh 96).usableSpace.toNat ∧
    ([] : List Byte).length + 8 ≤ (fresh 96).usableSpace.toNat := by decide

/-- T28: 5 bytes are too long for 4 usable bytes. -/
theorem witness_EncodeFailsOnlyWhenTooLong :
    (machine [fresh 36]).isReady 0 (fresh 36) ∧ (fresh 36).usableSpace.toNat < [(1 : Byte), 2, 3, 4, 5].length ∧
    ∃ t, exec (.encode 0 [1, 2, 3, 4, 5]) (machine [fresh 36]) = .next t ∧
      t.results = (machine [fresh 36]).results ++ [.encoded 0] := ⟨by decide, by decide, _, rfl, rfl⟩

/-- T25, T28: the two ends of the window, 57 and 64 bytes for 64 usable ones. -/
theorem witness_EncodeOverrunWindowRefused :
    two.isReady 0 (fresh 96) ∧
    ((fresh 96).usableSpace.toNat < (List.replicate 57 (1 : Byte)).length + 8 ∧
      (List.replicate 57 (1 : Byte)).length ≤ (fresh 96).usableSpace.toNat) ∧
    ((fresh 96).usableSpace.toNat < (List.replicate 64 (1 : Byte)).length + 8 ∧
      (List.replicate 64 (1 : Byte)).length ≤ (fresh 96).usableSpace.toNat) ∧
    (machine [fresh 36]).isReady 0 (fresh 36) ∧
    exec (.encode 0 []) (machine [fresh 36]) = .refused .encodeOverrun := by
  refine ⟨by decide, by decide, by decide, by decide, rfl⟩

theorem witness_Head0Byte : two.isReady 0 (fresh 96) ∧ (fresh 96).ds.state = .head0 := by decide

theorem witness_MarkerByteMatchesOrRestarts :
    (machine [inState .head1]).isReady 0 (inState .head1) ∧ (inState .head1).ds.state = .head1 ∧
    (machine [inState .head2]).isReady 0 (inState .head2) ∧ (inState .head2).ds.state = .head2 ∧
    (0x4C : Byte) ≠ 0x4D ∧ (0x4C : Byte) ≠ 0x58 := by decide

theorem witness_ChecksumAndLengthBytesAccepted :
    (machine [inState .verify]).isReady 0 (inState .verify) ∧
    (machine [inFrame (fresh 96) .len0 0x1F 0 0 []]).isReady 0 (inFrame (fresh 96) .len0 0x1F 0 0 []) ∧
    (inFrame (fresh 96) .len0 0x1F 0 0 []).HeaderOk ∧
    (machine [inFrame (fresh 96) .len1 0x1F 255 0 []]).isReady 0 (inFrame (fresh 96) .len1 0x1F 255 0 []) ∧
    (inFrame (fresh 96) .len1 0x1F 255 0 []).HeaderOk ∧
    (machine [inFrame (fresh 96) .len2 0x1F 65535 0 []]).isReady 0 (inFrame (fresh 96) .len2 0x1F 65535 0 []) ∧
    (inFrame (fresh 96) .len2 0x1F 65535 0 []).HeaderOk := by
  refine ⟨?_, ?_, ?_, ?_, ?_, ?_, ?_⟩ <;> decide

/-- T5: the length 64 fits 64 usable bytes, and 65 does not. -/
theorem witness_Len3TestsTheBound :
    (machine [inFrame (fresh 96) .len3 0 64 0 []]).isReady 0 (inFrame (fresh 96) .len3 0 64 0 []) ∧
    (inFrame (fresh 96) .len3 0 64 0 []).ds.state = .len3 ∧
    (64 : U32) = (inFrame (fresh 96) .len3 0 64 0 []).hdr.length ||| ((0 : Byte).setWidth 32 <<< 24) ∧
    (64 : U32).toNat ≤ (inFrame (fresh 96) .len3 0 64 0 []).usableSpace.toNat ∧
    (65 : U32) = (inFrame (fresh 96) .len3 0 65 0 []).hdr.length ||| ((0 : Byte).setWidth 32 <<< 24) ∧
    (inFrame (fresh 96) .len3 0 65 0 []).usableSpace.toNat < (65 : U32).toNat := by decide

/-- T3: bytes that hold the marker only at their very end, and bytes that hold it nowhere. -/
theorem witness_MarkerSearchIsExact :
    two.isReady 0 (fresh 96) ∧ (fresh 96).ds.state = .head0 ∧
    ¬ [(0x4C : Byte), 0x4D, 0x58] <:+: [(0x4C : Byte), 0x4D, 0x4C, 0x4D, 0x58].dropLast ∧
    ¬ [(0x4C : Byte), 0x4D, 0x58] <:+: [(0x4C : Byte), 0x4D].dropLast := by decide

/-- The three searching states. -/
theorem witness_FrameHeaderIsRecognised :
    two.isReady 0 (fresh 96) ∧ (fresh 96).searching ∧ (inState .head1).searching ∧
    (machine [inState .head2]).isReady 0 (inState .head2) ∧ (inState .head2).searching := by decide

theorem witness_FrameHeaderIsEightDecodes :
    (machine [lastByteDue]).Sound ∧ (machine [lastByteDue]).isReady 0 lastByteDue := by decide

/-- Outside `DATA`; in `DATA` with two bytes still due; with the last byte due, of the right sum and of another; and an
empty frame. -/
theorem witness_DecodeTakesOneByte :
    (two.Sound ∧ two.isReady 0 (fresh 96) ∧ (fresh 96).ds.state ≠ .data) ∧
    ((machine [headerSeen]).Sound ∧ (machine [headerSeen]).isReady 0 headerSeen ∧ headerSeen.ds.state = .data ∧
      headerSeen.ds.bytesCopied.toNat + 1 < headerSeen.hdr.length.toNat) ∧
    ((machine [lastByteDue]).Sound ∧ (machine [lastByteDue]).isReady 0 lastByteDue ∧ lastByteDue.ds.state = .data ∧
      lastByteDue.hdr.length.toNat ≤ lastByteDue.ds.bytesCopied.toNat + 1 ∧
      checksum [0x41, 0x42, 0x43] = lastByteDue.hdr.checksum ∧
      checksum [0x41, 0x42, 0x44] ≠ lastByteDue.hdr.checksum) ∧
    emptyFrame.hdr.length.toNat ≤ emptyFrame.ds.bytesCopied.toNat + 1 := by
  refine ⟨⟨?_, ?_, ?_⟩, ⟨?_, ?_, ?_, ?_⟩, ⟨?_, ?_, ?_, ?_, ?_, ?_⟩, ?_⟩ <;> decide

theorem witness_ZeroLengthFrameSwallowsAByte :
    ((machine [inFrame (fresh 96) .len3 0x59 0 0 []]).isReady 0 (inFrame (fresh 96) .len3 0x59 0 0 []) ∧
      (inFrame (fresh 96) .len3 0x59 0 0 []).ds.state = .len3 ∧
      (inFrame (fresh 96) .len3 0x59 0 0 []).hdr.length ||| ((0 : Byte).setWidth 32 <<< 24) = 0) ∧
    (machine [emptyFrame]).Sound ∧ (machine [emptyFrame]).isReady 0 emptyFrame ∧ emptyFrame.ds.state = .data ∧
    emptyFrame.hdr.length = 0 ∧ emptyFrame.ds.bytesCopied = 0 := by
  refine ⟨⟨?_, ?_, ?_⟩, ?_, ?_, ?_, ?_, ?_⟩ <;> decide

theorem witness_DecodeFindReportsTheLength :
    (two.Sound ∧ two.isReady 0 (fresh 96) ∧ (fresh 96).ds.state ≠ .data) ∧
    (machine [headerSeen]).Sound ∧ (machine [headerSeen]).isReady 0 headerSeen ∧ headerSeen.ds.state = .data := by
  refine ⟨⟨?_, ?_, ?_⟩, ?_, ?_, ?_⟩ <;> decide

/-- The wrong state, a short slice, and the right length with the right sum and with another. -/
theorem witness_DecodeCopyTakesTheSlice :
    (two.Sound ∧ two.isReady 0 (fresh 96) ∧ (fresh 96).ds.state ≠ .data) ∧
    (machine [headerSeen]).Sound ∧ (machine [headerSeen]).isReady 0 headerSeen ∧ headerSeen.ds.state = .data ∧
    [(0x41 : Byte), 0x42].length ≠ headerSeen.hdr.length.toNat ∧
    [(0x41 : Byte), 0x42, 0x43].length = headerSeen.hdr.length.toNat ∧
    checksum [0x41, 0x42, 0x43] = headerSeen.hdr.checksum ∧
    checksum [0x41, 0x42, 0x44] ≠ headerSeen.hdr.checksum := by
  refine ⟨⟨?_, ?_, ?_⟩, ?_, ?_, ?_, ?_, ?_, ?_, ?_⟩ <;> decide

theorem witness_DataIsLeftOnlyByTheseOperations :
    (machine [lastByteDue]).isReady 0 lastByteDue ∧ lastByteDue.ds.state = .data ∧
    ∃ t y, exec (.decode 0 0x43) (machine [lastByteDue]) = .next t ∧ t.units[0]? = some y ∧ y.ds.state ≠ .data :=
  ⟨by decide, rfl, _, _, rfl, rfl, by decide⟩

/-- An operation that changes all of `HDR`, `DS`, `BUF`, and one that changes none. -/
theorem witness_RegistersWrittenOnlyByTheirWriters :
    (∃ t y, exec (.init 0) (machine [lastByteDue]) = .next t ∧ (machine [lastByteDue]).units[0]? = some lastByteDue ∧
      t.units[0]? = some y ∧ y.hdr ≠ lastByteDue.hdr ∧ y.ds ≠ lastByteDue.ds ∧ y.buf ≠ lastByteDue.buf ∧
      y.initCount ≠ lastByteDue.initCount) ∧
    ∃ t, exec (.checksum []) (machine [lastByteDue]) = .next t :=
  ⟨⟨_, _, rfl, rfl, rfl, by decide, by decide, by decide, by decide⟩, _, rfl⟩

/-- E1: "ABC" between two fresh units; 56 bytes are the longest payload that fits (T25). -/
theorem witness_RoundTripByDecode :
    two.Sound ∧ (0 : Nat) ≠ 1 ∧ two.isReady 0 (fresh 96) ∧ two.isReady 1 (fresh 96) ∧ (fresh 96).searching ∧
    1 ≤ [(0x41 : Byte), 0x42, 0x43].length ∧ [(0x41 : Byte), 0x42, 0x43].length + 8 ≤ (fresh 96).usableSpace.toNat ∧
    (List.replicate 56 (0xAA : Byte)).length + 8 ≤ (fresh 96).usableSpace.toNat ∧
    (List.replicate 56 (0xAA : Byte)).length ≤ (fresh 96).usableSpace.toNat := by decide

theorem witness_RoundTripByFindAndCopy :
    two.Sound ∧ (0 : Nat) ≠ 1 ∧ two.isReady 0 (fresh 96) ∧ two.isReady 1 (fresh 96) ∧ (fresh 96).searching ∧
    1 ≤ [(0x68 : Byte), 0x65].length ∧ [(0x68 : Byte), 0x65].length + 8 ≤ (fresh 96).usableSpace.toNat ∧
    [(0x68 : Byte), 0x65].length ≤ (fresh 96).usableSpace.toNat := by decide

/-- T31: garbage that ends in a marker's first byte. -/
theorem witness_GarbageBeforeAFrameIsIgnored :
    two.Sound ∧ two.isReady 0 (fresh 96) ∧ (fresh 96).ds.state = .head0 ∧
    ¬ [(0x4C : Byte), 0x4D, 0x58] <:+: [(0x00 : Byte), 0xFF, 0x4C, 0x4D, 0x00, 0x58, 0x4C] ∧
    1 ≤ [(0x41 : Byte)].length ∧ [(0x41 : Byte)].length ≤ (fresh 96).usableSpace.toNat := by decide

/-- T50: a unit in mid-payload. -/
theorem witness_ResetThenFreshFrameSucceeds :
    (machine [lastByteDue]).Sound ∧ (machine [lastByteDue]).isReady 0 lastByteDue ∧
    1 ≤ [(0x78 : Byte), 0x79, 0x7A].length ∧
    [(0x78 : Byte), 0x79, 0x7A].length ≤ lastByteDue.usableSpace.toNat := by decide

/-- T40: the header of the "ABC" frame by `DECODE_FIND`, its last byte apart, and a payload of its length. -/
theorem witness_BothPathsLeaveTheSameUnits :
    two.Sound ∧ two.isReady 0 (fresh 96) ∧ (fresh 96).ds.state ≠ .data ∧
    ∃ m t y, execAll (feedf 0 [0x4C, 0x4D, 0x58, 0x1F, 3, 0, 0]) two = .next m ∧
      (∀ z, m.units[0]? = some z → z.ds.state ≠ .data) ∧ execAll (feedf 0 [0]) m = .next t ∧
      t.units[0]? = some y ∧ y.ds.state = .data ∧
      y.hdr.length.toNat = [(0x41 : Byte), 0x42, 0x43].length ∧ 1 ≤ [(0x41 : Byte), 0x42, 0x43].length := by
  refine ⟨by decide, by decide, by decide, _, _, _, rfl, ?_, rfl, rfl, rfl, rfl, by decide⟩
  rintro z h
  cases h
  decide

/-- T43: the last byte of "ABC" changed, the unit at the start of the payload. -/
theorem witness_OneChangedByteIsDetected :
    2 < [(0x41 : Byte), 0x42, 0x43].length ∧ (machine [headerSeen]).Sound ∧
    (machine [headerSeen]).isReady 0 headerSeen ∧ headerSeen.ds.state = .data ∧
    headerSeen.hdr.length.toNat = [(0x41 : Byte), 0x42, 0x43].length ∧
    headerSeen.hdr.checksum = checksum [0x41, 0x42, 0x43] ∧ (0x44 : Byte) ≠ [0x41, 0x42, 0x43][2] ∧
    headerSeen.ds.bytesCopied = 0 := by decide

/-- Machines that differ in the other unit, where an operation goes on and where it is refused, the second time from a
state that no run reaches. -/
theorem witness_UnitsShareNothing :
    ((Instr.decode 0 1).unit? = some 0 ∧ two.ils = (machine [fresh 96, headerSeen]).ils ∧
      two.units[0]? = (machine [fresh 96, headerSeen]).units[0]? ∧ two ≠ machine [fresh 96, headerSeen] ∧
      ∃ t, exec (.decode 0 1) two = .next t) ∧
    (∃ r, exec (.decode 0 1) (machine [CodecUnit.powerOn 96]) = .refused r) ∧
    (∃ r, exec (.decode 0 1) (machine [{ headerSeen with usableSpace := 0 }]) = .refused r) :=
  ⟨⟨rfl, rfl, rfl, by decide, _, rfl⟩, ⟨_, rfl⟩, _, rfl⟩

theorem witness_DifferentUnitsCommute :
    (Instr.encode 0 [0x41]).unit? = some 0 ∧ (Instr.decode 1 0x4C).unit? = some 1 ∧ (0 : Nat) ≠ 1 ∧
    ∃ t, execAll [.encode 0 [0x41], .decode 1 0x4C] two = .next t := ⟨rfl, rfl, by decide, _, rfl⟩

theorem witness_MarkRegistersAreNeverRead :
    (machine [{ fresh 96 with hdr := ⟨1, 2, 3, 0, 0⟩ }]).eraseMarks = (machine [fresh 96]).eraseMarks ∧
    machine [{ fresh 96 with hdr := ⟨1, 2, 3, 0, 0⟩ }] ≠ machine [fresh 96] := by decide

theorem witness_UnspecifiedRegistersAreNeverSeen :
    (machine [{ CodecUnit.powerOn 96 with hdr := ⟨1, 2, 3, 4, 5⟩, ds := ⟨.data, 6⟩, buf := [(7, 8)] }]).specified =
      (machine [CodecUnit.powerOn 96]).specified ∧
    machine [{ CodecUnit.powerOn 96 with hdr := ⟨1, 2, 3, 4, 5⟩, ds := ⟨.data, 6⟩, buf := [(7, 8)] }] ≠
      machine [CodecUnit.powerOn 96] := by decide

end Sys2Proof.Tests
end

/-! ## The scope of 00_scope.md: what a step runs, what it delivers, what it never changes -/

namespace Sys2Proof.Machine

/-! ### The step -/

theorem step_of_port_nil {s : State} (h : s.port = []) : step s = .next s := by
  simp [step, h]

theorem step_of_port_cons {s : State} {item : PortItem} {rest : List PortItem} (h : s.port = item :: rest) :
    step s = issue item { s with port := rest } := by
  simp [step, h]

theorem issue_of_decode_ok {item : PortItem} {i : Instr} (h : decode item = .ok i) (s : State) :
    issue item s = exec i s := by
  simp [issue, h]

/-- A port item goes on only as the instruction it decodes to. -/
theorem issue_eq_next {item : PortItem} {s t : State} :
    issue item s = .next t ↔ ∃ i, decode item = .ok i ∧ exec i s = .next t := by
  unfold issue
  cases decode item <;> simp

/-- Every way a step goes on: nothing is issued, or the first item runs as the instruction it decodes to. -/
theorem step_eq_next {s t : State} (h : step s = .next t) :
    (s.port = [] ∧ t = s) ∨
    ∃ item rest i, s.port = item :: rest ∧ decode item = .ok i ∧ exec i { s with port := rest } = .next t := by
  cases hp : s.port with
  | nil =>
    rw [step_of_port_nil hp] at h
    exact .inl ⟨rfl, (Host.Outcome.next.inj h).symm⟩
  | cons item rest =>
    rw [step_of_port_cons hp] at h
    obtain ⟨i, hd, he⟩ := issue_eq_next.mp h
    exact .inr ⟨item, rest, i, rfl, hd, he⟩

/-- Settles O6: the step gives the first item to `issue`, which runs what it decodes to. -/
theorem stepRunsTheDecodedInstruction : Obligations.StepRunsTheDecodedInstruction := by
  intro s item rest i hp hd
  rw [step_of_port_cons hp, issue_of_decode_ok hd]

/-- Settles O7: a step with an empty port is the idle step. -/
theorem nothingIssuedNothingChanges : Obligations.NothingIssuedNothingChanges :=
  fun _ => step_of_port_nil

/-! ### The parameters -/

/-- `CAP` is no register: no operation on a unit writes it (R5, R23). -/
theorem UnitStep.cap_eq {ils : Nat} {i : Instr} {x y : CodecUnit} {r : Result} (h : UnitStep ils i x y r) :
    y.cap = x.cap := by
  cases h with
  | headerByte u b x => exact hdrStep_cap b x
  | findByte u b x => exact hdrStep_cap b x
  | _ => rfl

/-- Two states with the same `ILS`, the same number of units and the same `CAP` of each (R5). -/
def SameParameters (s t : State) : Prop := t.ils = s.ils ∧ t.units.map (·.cap) = s.units.map (·.cap)

theorem SameParameters.refl (s : State) : SameParameters s s := ⟨rfl, rfl⟩

theorem SameParameters.trans {s m t : State} (h : SameParameters s m) (h' : SameParameters m t) :
    SameParameters s t :=
  ⟨h'.1.trans h.1, h'.2.trans h.2⟩

/-- A unit put back with the `CAP` it had leaves the parameters as they are. -/
theorem sameParameters_setUnit {s : State} {u : Nat} {x y : CodecUnit} (hx : s.units[u]? = some x)
    (hc : y.cap = x.cap) : SameParameters s (s.setUnit u y) := by
  obtain ⟨hu, rfl⟩ := List.getElem?_eq_some_iff.mp hx
  refine ⟨rfl, List.ext_getElem (by simp) fun k hk _ => ?_⟩
  by_cases hku : u = k
  · subst hku; simpa using hc
  · simp [List.getElem_set_ne hku]

/-- No instruction that goes on changes the parameters (R23). -/
theorem exec_sameParameters {i : Instr} {s t : State} (h : exec i s = .next t) : SameParameters s t :=
  exec_induction SameParameters.refl (fun _ _ _ => SameParameters.trans) (fun s _ _ => SameParameters.refl s)
    (fun _ _ _ _ _ _ _ _ hx hs => sameParameters_setUnit hx hs.cap_eq) h

/-- Settles O11: the idle step changes nothing, and any other step is an instruction. -/
theorem parametersNeverChange : Obligations.ParametersNeverChange := by
  intro s t h
  rcases step_eq_next h with ⟨-, rfl⟩ | ⟨_, _, _, -, -, he⟩
  · exact SameParameters.refl t
  · obtain ⟨hils, hcaps⟩ := exec_sameParameters he
    exact ⟨hils, hcaps⟩

/-! ### The results -/

/-- From `s` to `t` the host has been given `n` results, oldest first, and nothing was taken from the port. -/
def Delivers (n : Nat) (s t : State) : Prop :=
  ∃ rs, t.results = s.results ++ rs ∧ t.port = s.port ∧ rs.length = n

theorem Delivers.refl (s : State) : Delivers 0 s s := ⟨[], by simp⟩

theorem Delivers.trans {n k : Nat} {s m t : State} (h : Delivers n s m) (h' : Delivers k m t) :
    Delivers (n + k) s t := by
  obtain ⟨rs, hr, hp, rfl⟩ := h
  obtain ⟨qs, hr', hp', rfl⟩ := h'
  exact ⟨rs ++ qs, by rw [hr', hr, List.append_assoc], hp'.trans hp, List.length_append⟩

theorem delivers_deliver (s : State) (r : Result) : Delivers 1 s (s.deliver r) := ⟨[r], rfl, rfl, rfl⟩

theorem delivers_setUnit_deliver (s : State) (u : Nat) (x : CodecUnit) (r : Result) :
    Delivers 1 s ((s.setUnit u x).deliver r) :=
  delivers_deliver (s.setUnit u x) r

/-- Each byte from the wire is one `DECODE`, and so one result (log entry 1). -/
theorem decodeBytes_delivers {u : Nat} {bs : List Byte} {s t : State} (h : decodeBytes u bs s = .next t) :
    Delivers bs.length s t := by
  induction bs generalizing s with
  | nil => cases h; exact Delivers.refl _
  | cons b bs ih =>
    obtain ⟨m, hm, ht⟩ := andThen_eq_next.mp h
    obtain ⟨x, y, r, -, -, rfl⟩ := execDecode_eq_next hm
    rw [List.length_cons, Nat.add_comm]
    exact (delivers_setUnit_deliver s u y r).trans (ih ht)

/-- How many results an instruction gives; a frame header is eight operations (log entry 1). -/
def resultCount : Instr → Nat
  | .frameHeader _ _ _ => 8
  | _ => 1

theorem resultCount_of_unit?_eq_none {i : Instr} (h : i.unit? = none) : resultCount i = 1 := by
  cases i with
  | frameHeader u c n => cases h
  | _ => rfl

theorem UnitStep.resultCount_eq {ils : Nat} {i : Instr} {x y : CodecUnit} {r : Result} (h : UnitStep ils i x y r) :
    resultCount i = 1 := by
  cases h <;> rfl

theorem exec_delivers {i : Instr} {s t : State} (h : exec i s = .next t) : Delivers (resultCount i) s t := by
  rcases exec_eq_next h with ⟨hn, r, rfl⟩ | ⟨u, x, y, r, -, -, hs, rfl⟩ | ⟨u, c, n, rfl, hd⟩
  · rw [resultCount_of_unit?_eq_none hn]; exact delivers_deliver s r
  · rw [hs.resultCount_eq]; exact delivers_setUnit_deliver s u y r
  · exact decodeBytes_delivers hd

/-- Settles O10: one result for an operation, and one for each of a frame header's eight bytes. -/
theorem eachOperationDeliversItsResult : Obligations.EachOperationDeliversItsResult := by
  intro i s t h
  have hd := exec_delivers h
  cases i <;> exact hd

/-! ### The memory -/

/-- A canonical memory lists exactly the bytes that are not 0, each as it is read. -/
theorem Memory.mem_iff_read {m : Memory} (hm : Memory.wf m) (a : Nat) (b : Byte) :
    (a, b) ∈ m ↔ b ≠ 0 ∧ Memory.read m a = b := by
  induction m with
  | nil => exact iff_of_false (by simp) fun h => h.1 h.2.symm
  | cons c m ih =>
    obtain ⟨k, v⟩ := c
    obtain ⟨hk, hs⟩ := List.pairwise_cons.mp hm.1
    have hv : v ≠ 0 := hm.2 (k, v) (by simp)
    have ih := ih ⟨hs, fun d hd => hm.2 d (by simp [hd])⟩
    by_cases hak : a = k
    · subst hak
      have hnot : (a, b) ∉ m := fun h => Nat.lt_irrefl a (hk _ h)
      have hb : b = v → b ≠ 0 := fun h => h ▸ hv
      simp only [List.mem_cons, Prod.mk.injEq, hnot, Memory.read, if_true, true_and, or_false]
      exact ⟨fun h => ⟨hb h, h.symm⟩, fun h => h.2.symm⟩
    · simp [Memory.read, hak, ih]

/-- Two canonical memories that read alike are the same list: both are sorted and list the same cells. -/
theorem Memory.ext_read {m m' : Memory} (hm : Memory.wf m) (hm' : Memory.wf m')
    (h : ∀ a, Memory.read m a = Memory.read m' a) : m = m' := by
  have : Std.Irrefl fun x y : Host.Cell => x.1 < y.1 := ⟨fun x => Nat.lt_irrefl x.1⟩
  have : Std.Antisymm fun x y : Host.Cell => x.1 < y.1 := ⟨fun _ _ hxy hyx => absurd hyx (Nat.lt_asymm hxy)⟩
  refine List.Pairwise.eq_of_mem_iff hm.1 hm'.1 fun ⟨a, b⟩ => ?_
  rw [Memory.mem_iff_read hm, Memory.mem_iff_read hm', h]

/-- A read after a sequence is written, by whether the address is one of the sequence's. -/
theorem Memory.read_writeSeq_of_range {m : Memory} (hm : Memory.wf m) (off : Nat) (bs : List Byte) (a : Nat) :
    Memory.read (Memory.writeSeq m off bs) a =
      if off ≤ a ∧ a < off + bs.length then bs.getD (a - off) 0 else Memory.read m a := by
  rw [Memory.read_writeSeq hm]
  by_cases hlo : off ≤ a
  · by_cases hhi : a < off + bs.length
    · have hk : a - off < bs.length := by omega
      simp [hlo, hhi, List.getElem?_eq_getElem hk]
    · have hk : bs.length ≤ a - off := by omega
      simp [hlo, hhi, List.getElem?_eq_none hk]
  · simp [hlo]

/-- Settles O17: reads after writes, the form kept, and the form's uniqueness. -/
theorem memoryReadsWhatWasWritten : Obligations.MemoryReadsWhatWasWritten :=
  ⟨fun _ off bs a hm => Memory.read_writeSeq_of_range hm off bs a,
    fun _ off bs hm => Memory.wf_writeSeq hm off bs,
    fun _ _ hm hm' h => Memory.ext_read hm hm' h⟩

end Sys2Proof.Machine

/-! ## The invariants of 10_state.md: what holds at power-on, and what every operation keeps (R20) -/

namespace Sys2Proof.Machine

/-! ### Power-on -/

theorem powerOn_sound {ils : Nat} {caps : List U32} (h : caps ≠ []) : (State.powerOn ils caps).Sound := by
  refine ⟨by simpa [State.powerOn] using List.length_pos_iff.mpr h, fun x hx => ?_⟩
  obtain ⟨cap, -, rfl⟩ := List.mem_map.mp hx
  simp [CodecUnit.Sound, CodecUnit.powerOn, Memory.wf]

/-- No unit is initialised at power-on, so R20 asks nothing yet. -/
theorem powerOn_headersOk (ils : Nat) (caps : List U32) : (State.powerOn ils caps).HeadersOk := by
  intro x hx hr
  obtain ⟨cap, -, rfl⟩ := List.mem_map.mp hx
  simp [CodecUnit.powerOn] at hr

/-- Settles O12: a unit at power-on has an empty `BUF` and is not initialised. -/
theorem powerOnIsSound : Obligations.PowerOnIsSound :=
  have hreset : Config.resetCaps ≠ [] := List.cons_ne_nil _ _
  ⟨fun ils caps h => ⟨powerOn_sound h, powerOn_headersOk ils caps⟩,
    powerOn_sound hreset, powerOn_headersOk _ _⟩

/-! ### The invariant of one unit -/

/-- `hdr_step` never makes the count of payload bytes anything but 0. -/
theorem hdrStep_bytesCopied {b : Byte} {x : CodecUnit} (h : x.ds.bytesCopied = 0) :
    (hdrStep b x).ds.bytesCopied = 0 := by
  unfold hdrStep head1Eval head2Eval
  split <;> (try split) <;> simp [head0Eval, verifyEval, lengthEval, len3Eval, h]

/-- `hdr_step` enters `DATA` only from `LEN3`, past the bound on the completed length (R107). -/
theorem hdrStep_lengthFits {b : Byte} {x : CodecUnit} (hs : x.ds.state ≠ .data)
    (h : (hdrStep b x).ds.state = .data) : lengthFits x (hdrStep b x).hdr.length := by
  cases hx : x.ds.state with
  | len3 =>
    rw [hdrStep_len3 hx] at h ⊢
    by_cases hl : lengthFits x (orLengthByte x.hdr.length b 3)
    · exact hl
    · simp [len3Eval, lengthEval, len3Next, hl] at h
  | data => exact absurd hx hs
  | _ =>
    simp only [hdrStep, hx, head0Eval, head1Eval, head2Eval, verifyEval, lengthEval] at h
    repeat' split at h
    all_goals simp at h

theorem CodecUnit.sound_of_ready {x : CodecUnit} {ils : Nat} (hr : x.status = .ready) (hm : Memory.wf x.buf)
    (hx : x.ReadyOk ils) : x.Sound ils :=
  ⟨hm, fun _ => hx, by simp [hr], by simp [hr]⟩

theorem sound_initialised {x : CodecUnit} {ils : Nat} (h : capacityOk x.cap ils) : (x.initialised ils).Sound ils := by
  have hu : (BitVec.ofNat 32 (x.cap.toNat - ils)).toNat = x.cap.toNat - ils := by
    have := x.cap.isLt
    simp; omega
  refine CodecUnit.sound_of_ready rfl ⟨List.Pairwise.nil, by simp [CodecUnit.initialised]⟩ ?_
  simp only [CodecUnit.ReadyOk, CodecUnit.initialised, hu]
  refine ⟨by omega, by omega, by simp, by simp, by simp⟩

theorem sound_initFailed {x : CodecUnit} {ils u : Nat} (h : ¬ capacityOk x.cap ils) : (x.initFailed u).Sound ils := by
  have : x.cap.toNat ≤ ils := by omega
  simpa [CodecUnit.Sound, CodecUnit.initFailed, Memory.wf]

/-- A sound unit after `DS` is reset and bytes are stored inside `BUF`. -/
theorem sound_resetDs {x : CodecUnit} {ils off : Nat} {bs : List Byte} (hr : x.status = .ready) (hx : x.Sound ils)
    (hb : x.inBuf off bs.length) :
    ({ x.resetDs with buf := Memory.writeSeq x.buf off bs } : CodecUnit).Sound ils := by
  obtain ⟨hm, hok, -, -⟩ := hx
  obtain ⟨hu, hpos, hcells, -, -⟩ := hok hr
  exact CodecUnit.sound_of_ready hr (Memory.wf_writeSeq hm off bs)
    ⟨hu, hpos, Memory.writeSeq_lt hcells hb, by simp, by simp⟩

theorem sound_hdrStep {x : CodecUnit} {ils : Nat} {b : Byte} (hr : x.status = .ready) (hs : x.ds.state ≠ .data)
    (hx : x.Sound ils) : (hdrStep b x).Sound ils := by
  obtain ⟨hm, hok, -, -⟩ := hx
  obtain ⟨hu, hpos, hcells, h0, -⟩ := hok hr
  have h0 := hdrStep_bytesCopied (b := b) (h0 hs)
  refine CodecUnit.sound_of_ready (by simpa using hr) (by simpa using hm)
    ⟨by simpa using hu, by simpa using hpos, by simpa using hcells, fun _ => h0, fun hd => ⟨?_, ?_⟩⟩
  · simpa using hdrStep_lengthFits hs hd
  · simpa [h0] using hpos

/-- A frame that fits has a length that fits (R85, R87). -/
theorem toNat_seqLength_of_fits {x : CodecUnit} {p : List Byte} (h : ¬ frameOverruns x p.length) :
    (seqLength p).toNat = p.length ∧ p.length + 8 ≤ x.usableSpace.toNat := by
  have := x.usableSpace.isLt
  have h : p.length + 8 ≤ x.usableSpace.toNat := by simpa [frameOverruns, headerSize] using h
  exact ⟨by simp [seqLength]; omega, h⟩

theorem sound_encoded {x : CodecUnit} {ils : Nat} {p : List Byte} (hr : x.status = .ready)
    (h : ¬ frameOverruns x p.length) (hx : x.Sound ils) :
    ({ x with hdr := hdrOfFrame (checksum p) (seqLength p)
              buf := Memory.writeSeq x.buf 0 (frameOf (checksum p) p) } : CodecUnit).Sound ils := by
  obtain ⟨hm, hok, -, -⟩ := hx
  obtain ⟨hu, hpos, hcells, h0, hd⟩ := hok hr
  obtain ⟨hn, hfit⟩ := toNat_seqLength_of_fits h
  refine CodecUnit.sound_of_ready hr (Memory.wf_writeSeq hm 0 _)
    ⟨hu, hpos, Memory.writeSeq_lt hcells (by simpa using hfit), h0, fun hs => ⟨?_, (hd hs).2⟩⟩
  simp only [lengthFits, hdrOfFrame, hn]
  omega

theorem sound_payloadByte {x : CodecUnit} {ils : Nat} {b : Byte} (hr : x.status = .ready) (hs : x.ds.state = .data)
    (hb : x.inBuf x.ds.bytesCopied.toNat 1) (hi : (x.ds.bytesCopied + 1).toNat < x.hdr.length.toNat)
    (hx : x.Sound ils) :
    (CodecUnit.countByte { x with buf := Memory.write x.buf x.ds.bytesCopied.toNat b }).Sound ils := by
  obtain ⟨hm, hok, -, -⟩ := hx
  obtain ⟨hu, hpos, hcells, -, hd⟩ := hok hr
  obtain ⟨hl, -⟩ := hd hs
  exact CodecUnit.sound_of_ready hr (Memory.wf_write hm _ b)
    ⟨hu, hpos, Memory.write_keys (P := (· < x.usableSpace.toNat)) b hb hcells, fun h => absurd hs h,
      fun _ => ⟨hl, Nat.lt_of_lt_of_le hi hl⟩⟩

/-- Every operation on a unit keeps the unit's invariant. -/
theorem UnitStep.sound {ils : Nat} {i : Instr} {x y : CodecUnit} {r : Result} (h : UnitStep ils i x y r)
    (hx : x.Sound ils) : y.Sound ils := by
  cases h with
  | initOk u x h => exact sound_initialised h
  | initFailed u x h => exact sound_initFailed h
  | reset u x hr => exact sound_resetDs (off := 0) (bs := []) hr hx (Nat.zero_le _)
  | encodeTooLong => exact hx
  | encoded u p x hr h => exact sound_encoded hr h hx
  | headerByte u b x hr hs => exact sound_hdrStep hr hs hx
  | payloadByte u b x hr hs hb hi => exact sound_payloadByte hr hs hb hi hx
  | lastPayloadByte u b x hr hs hb => exact sound_resetDs (bs := [b]) hr hx hb
  | findByte u b x hr hs => exact sound_hdrStep hr hs hx
  | findInData => exact hx
  | copyMismatch => exact hx
  | copied u src x hr hs hn hb => exact sound_resetDs hr hx hb

/-! ### The invariant of the machine -/

/-- What holds of every unit holds of every unit after one is put back of which it holds. -/
theorem forall_mem_setUnit {P : CodecUnit → Prop} {s : State} {u : Nat} {y : CodecUnit}
    (h : ∀ x ∈ s.units, P x) (hy : P y) : ∀ x ∈ (s.setUnit u y).units, P x := by
  intro x hx
  rcases List.mem_or_eq_of_mem_set hx with hx | rfl
  · exact h x hx
  · exact hy

/-- Every instruction keeps the machine's invariant, from any state that has it. -/
theorem exec_sound {i : Instr} {s t : State} (h : exec i s = .next t) (hs : s.Sound) : t.Sound := by
  refine exec_induction (R := fun s t => s.Sound → t.Sound) (fun _ => id) (fun _ _ _ h h' => h' ∘ h)
    (fun _ _ _ => id) ?_ h hs
  rintro j u s x y r - - hx hstep ⟨hpos, hunits⟩
  have hy : y.Sound s.ils := hstep.sound (hunits x (List.mem_of_getElem? hx))
  exact ⟨by simpa using hpos, forall_mem_setUnit hunits hy⟩

/-- Settles O13: the idle step changes nothing, and the port is no part of the invariant. -/
theorem stepKeepsSound : Obligations.StepKeepsSound := by
  intro s t hs h
  rcases step_eq_next h with ⟨-, rfl⟩ | ⟨_, rest, i, -, -, he⟩
  · exact hs
  · exact exec_sound he hs

/-! ### The five items of R20 -/

theorem headerOk_of_head0 {x : CodecUnit} (hs : x.ds.state = .head0) (h0 : x.ds.bytesCopied = 0) : x.HeaderOk := by
  simp [CodecUnit.HeaderOk, hs, h0]

/-- Looking for a first marker byte leaves what R20 asks, whatever the unit was (R100). -/
theorem head0Eval_headerOk (b : Byte) (x : CodecUnit) : (head0Eval b x).HeaderOk := by
  by_cases hb : b = mark0 <;> simp [CodecUnit.HeaderOk, head0Eval, hb]

/-- A header byte keeps the five items: a marker byte is the one recorded, a length byte goes where there are zeros. -/
theorem hdrStep_headerOk {b : Byte} {x : CodecUnit} (hs : x.ds.state ≠ .data) (hx : x.HeaderOk) :
    (hdrStep b x).HeaderOk := by
  obtain ⟨h0, -, -, ⟨hlen1, hlen2, hlen3, hzero⟩, hm0, hm1, hm2⟩ := hx
  have h0 := h0 hs
  have hb := b.isLt
  cases h : x.ds.state with
  | head0 => rw [hdrStep_head0 h]; exact head0Eval_headerOk b x
  | head1 =>
    rw [hdrStep_head1 h, head1Eval]
    split
    · simp_all [CodecUnit.HeaderOk]
    · exact head0Eval_headerOk b _
  | head2 =>
    rw [hdrStep_head2 h, head2Eval]
    split
    · simp_all [CodecUnit.HeaderOk]
    · exact head0Eval_headerOk b _
  | verify => rw [hdrStep_verify h]; simp_all [CodecUnit.HeaderOk, verifyEval]
  | len0 =>
    have hn := toNat_orLengthByte (v := x.hdr.length) (b := b) (k := 0) (by omega) (by simp [h, hzero])
    rw [hdrStep_len0 h]
    simp_all [CodecUnit.HeaderOk, lengthEval]
  | len1 =>
    have hn := toNat_orLengthByte (v := x.hdr.length) (b := b) (k := 1) (by omega) (hlen1 h)
    rw [hdrStep_len1 h]
    simp_all [CodecUnit.HeaderOk, lengthEval]
    omega
  | len2 =>
    have hn := toNat_orLengthByte (v := x.hdr.length) (b := b) (k := 2) (by omega) (hlen2 h)
    rw [hdrStep_len2 h]
    simp_all [CodecUnit.HeaderOk, lengthEval]
    omega
  | len3 =>
    rw [hdrStep_len3 h, len3Eval, len3Next]
    split
    · simp_all [CodecUnit.HeaderOk, lengthEval]
    · exact headerOk_of_head0 rfl h0
  | data => exact absurd h hs

/-- A payload byte that is not the last keeps the five items: the count stays below the length. -/
theorem countByte_headerOk {b : Byte} {x : CodecUnit} (hs : x.ds.state = .data)
    (hi : (x.ds.bytesCopied + 1).toNat < x.hdr.length.toNat) (hx : x.HeaderOk) :
    (CodecUnit.countByte { x with buf := Memory.write x.buf x.ds.bytesCopied.toNat b }).HeaderOk := by
  obtain ⟨-, hl, -, hlen, hmarks⟩ := hx
  exact ⟨fun h => absurd hs h, hl, fun _ => Nat.lt_of_lt_of_le hi (Nat.le_max_left _ _), hlen, hmarks⟩

/-- Every operation on a unit but an `ENCODE` in mid-decode keeps the five items for that unit. -/
theorem UnitStep.headerOk {ils : Nat} {i : Instr} {x y : CodecUnit} {r : Result} (h : UnitStep ils i x y r)
    (hdir : ∀ u p, i = .encode u p → x.ds.state = .head0) (hx : x.status = .ready → x.HeaderOk) :
    y.status = .ready → y.HeaderOk := by
  cases h with
  | initOk | reset | lastPayloadByte | copied => exact fun _ => headerOk_of_head0 rfl rfl
  | initFailed => intro h; cases h
  | encodeTooLong | findInData | copyMismatch => exact hx
  | encoded u p x hr =>
    have hs := hdir u p rfl
    exact fun _ => headerOk_of_head0 hs ((hx hr).1 (by simp [hs]))
  | headerByte u b x hr hs | findByte u b x hr hs => exact fun _ => hdrStep_headerOk hs (hx hr)
  | payloadByte u b x hr hs hb hi => exact fun _ => countByte_headerOk hs hi (hx hr)

/-- A unit step on a machine that satisfies R20, where it is no `ENCODE` in mid-decode. -/
theorem UnitStep.headersOk {s : State} {u : Nat} {i : Instr} {x y : CodecUnit} {r : Result}
    (h : UnitStep s.ils i x y r) (hx : s.units[u]? = some x)
    (hdir : ∀ v p, i = .encode v p → x.ds.state = .head0) (hs : s.HeadersOk) : (s.setUnit u y).HeadersOk :=
  forall_mem_setUnit (P := fun x => x.status = .ready → x.HeaderOk) hs
    (h.headerOk hdir (hs x (List.mem_of_getElem? hx)))

/-- Settles O15: one unit step keeps the items, and a frame header is `DECODE`s, none of which is an `ENCODE`. -/
theorem oneDirectionKeepsHeaderItems : Obligations.OneDirectionKeepsHeaderItems := by
  intro i s t hs hdir h
  rcases exec_eq_next h with ⟨-, r, rfl⟩ | ⟨u, x, y, r, hu, hx, hstep, rfl⟩ | ⟨u, c, n, -, hd⟩
  · exact hs
  · refine hstep.headersOk hx ?_ hs
    rintro v p rfl
    cases hu
    exact hdir u p x rfl hx
  · exact decodeBytes_induction (R := fun s t => s.HeadersOk → t.HeadersOk) (fun _ => id)
      (fun _ _ _ h h' => h' ∘ h) (fun _ _ _ _ _ hx hstep => hstep.headersOk hx (by simp)) hd hs

/-! ### `ENCODE` in mid-decode -/

/-- Where the frame fits, `ENCODE` goes on whatever the unit's decoder is doing (R85, decision D21). -/
theorem exec_encode_of_fits {s : State} {u : Nat} {x : CodecUnit} {p : List Byte} (hx : s.isReady u x)
    (h : p.length + headerSize ≤ x.usableSpace.toNat) :
    exec (.encode u p) s = .next ((s.setUnit u
      { x with hdr := hdrOfFrame (checksum p) (seqLength p)
               buf := Memory.writeSeq x.buf 0 (frameOf (checksum p) p) }).deliver
      (.encoded (BitVec.ofNat 32 (p.length + headerSize)))) := by
  obtain ⟨hu, hr⟩ := hx
  rw [exec, execEncode, onReady_of_ready _ hu hr, encodeUnit_fits h, finish_next]

/-- An initialised unit of 64 usable bytes that has received a header up to `d`, the length read so far being `n`. -/
def receiving (d : DecodeRegs) (n : U32) : CodecUnit where
  cap := 96
  status := .ready
  hdr := ⟨mark0, mark1, mark2, 0, n⟩
  ds := d
  usableSpace := 64
  buf := []
  initCount := 1

/-- A machine whose one unit is receiving a frame. -/
def receivingMachine (d : DecodeRegs) (n : U32) : State := ⟨32, [receiving d n], [], []⟩

/-- The unit after the one byte `0x41` is encoded on it in mid-decode: `HDR` describes the frame sent, `DS` still the
frame received. -/
theorem exec_encode_receiving (d : DecodeRegs) (n : U32) :
    ∃ t y, exec (.encode 0 [0x41]) (receivingMachine d n) = .next t ∧ t.isReady 0 y ∧ y.ds = d ∧
      y.hdr.length = 1 :=
  ⟨_, _, exec_encode_of_fits (x := receiving d n) ⟨rfl, rfl⟩ (show 9 ≤ 64 by decide), ⟨rfl, rfl⟩, rfl, rfl⟩

/-- Settles O16: a payload of one byte is encoded after five of ten payload bytes, and before the first length
byte. -/
theorem encodeInMidDecodeBreaksItems : Obligations.EncodeInMidDecodeBreaksItems := by
  constructor
  · obtain ⟨t, y, he, hy, hd, hn⟩ := exec_encode_receiving ⟨.data, 5⟩ 10
    refine ⟨_, t, _, y, _, ?_, ?_, ⟨rfl, rfl⟩, he, hy, rfl, by rw [hd], by rw [hd, hn]; decide⟩ <;> decide
  · obtain ⟨t, y, he, hy, hd, hn⟩ := exec_encode_receiving ⟨.len0, 0⟩ 0
    refine ⟨_, t, _, y, _, ?_, ?_, ⟨rfl, rfl⟩, he, hy, rfl, by rw [hd], by rw [hn]; decide⟩ <;> decide

end Sys2Proof.Machine

/-! ## Who writes a register (10_state.md R10), and what an operation cannot reach or see (R22, R11, R21) -/

namespace Sys2Proof.Machine

/-! ### What an instruction does to one unit -/

/-- An instruction leaves every unit alone but the one it names (R22). -/
theorem exec_units_ne {i : Instr} {u : Nat} {s t : State} (h : exec i s = .next t) (hu : i.unit? ≠ some u) :
    t.units[u]? = s.units[u]? := by
  refine exec_induction (R := fun s t => t.units[u]? = s.units[u]?) (fun _ => rfl)
    (fun _ _ _ h h' => h'.trans h) (fun _ _ _ => rfl) ?_ h
  rintro j v s x y r - hv - -
  exact setUnit_get_ne s y fun huv => hu (huv ▸ hv)

/-- What only `INIT` writes: `usable_space` (R10), and the model's own fields (log entries 6 and 7). -/
def CodecUnit.initFields (x : CodecUnit) : U32 × InitStatus × Nat := (x.usableSpace, x.status, x.initCount)

theorem UnitStep.initFields_eq {ils u : Nat} {i : Instr} {x y : CodecUnit} {r : Result} (h : UnitStep ils i x y r)
    (hu : i.unit? = some u) (hi : i ≠ .init u) : y.initFields = x.initFields := by
  cases h with
  | initOk | initFailed => cases hu; exact absurd rfl hi
  | headerByte | findByte => simp [CodecUnit.initFields]
  | _ => rfl

/-- A unit put back with a field as it was leaves that field of every unit as it was. -/
theorem map_setUnit_of_eq {α : Type} (f : CodecUnit → α) {s : State} {u : Nat} {x y : CodecUnit}
    (hx : s.units[u]? = some x) (hf : f y = f x) : (s.setUnit u y).units.map f = s.units.map f := by
  obtain ⟨hu, rfl⟩ := List.getElem?_eq_some_iff.mp hx
  rw [setUnit_units, List.map_set, hf, ← List.getElem_map f (h := by simpa using hu), List.set_getElem_self]

theorem decodeBytes_initFields {u : Nat} {bs : List Byte} {s t : State} (h : decodeBytes u bs s = .next t) :
    t.units.map CodecUnit.initFields = s.units.map CodecUnit.initFields :=
  decodeBytes_induction (R := fun s t => t.units.map CodecUnit.initFields = s.units.map CodecUnit.initFields)
    (fun _ => rfl) (fun _ _ _ h h' => h'.trans h)
    (fun _ _ _ _ _ hx hs => map_setUnit_of_eq CodecUnit.initFields hx (hs.initFields_eq rfl nofun)) h

/-- A field that is the same in the two lists of units is the same in two units at one place. -/
theorem eq_of_map_units_eq {α : Type} {f : CodecUnit → α} {s t : State} {u : Nat} {x y : CodecUnit}
    (h : t.units.map f = s.units.map f) (hx : s.units[u]? = some x) (hy : t.units[u]? = some y) : f y = f x := by
  simpa [hx, hy] using congrArg (·[u]?) h

/-- What an instruction that goes on does to one unit: nothing, one unit step, or what a frame header does. -/
theorem exec_unit_eq_next {i : Instr} {s t : State} {u : Nat} {x y : CodecUnit} (h : exec i s = .next t)
    (hx : s.units[u]? = some x) (hy : t.units[u]? = some y) :
    y = x ∨ (i.unit? = some u ∧ ∃ r, UnitStep s.ils i x y r) ∨
      ∃ c n, i = .frameHeader u c n ∧ y.initFields = x.initFields := by
  by_cases hu : i.unit? = some u
  · rcases exec_eq_next h with ⟨hn, -⟩ | ⟨v, x', y', r, hv, hx', hs, rfl⟩ | ⟨v, c, n, rfl, hd⟩
    · simp [hn] at hu
    · obtain rfl : v = u := Option.some.inj (hv.symm.trans hu)
      obtain rfl : x' = x := Option.some.inj (hx'.symm.trans hx)
      obtain rfl : y' = y := Option.some.inj ((setUnit_get_self y' hx).symm.trans hy)
      exact .inr (.inl ⟨hu, r, hs⟩)
    · cases hu
      exact .inr (.inr ⟨c, n, rfl, eq_of_map_units_eq (decodeBytes_initFields hd) hx hy⟩)
  · rw [exec_units_ne h hu, hx] at hy
    exact .inl (Option.some.inj hy).symm

/-! ### The writers of each register group -/

theorem UnitStep.buf_writer {ils u : Nat} {i : Instr} {x y : CodecUnit} {r : Result} (h : UnitStep ils i x y r)
    (hu : i.unit? = some u) (hne : y.buf ≠ x.buf) :
    i = .init u ∨ (∃ p, i = .encode u p) ∨ (∃ b, i = .decode u b ∧ x.ds.state = .data) ∨
      (∃ src, i = .decodeCopy u src ∧ x.ds.state = .data) := by
  cases h with
  | initOk | initFailed | encoded => cases hu; simp
  | payloadByte u b x hr hs | lastPayloadByte u b x hr hs | copied u src x hr hs => cases hu; simp [hs]
  | headerByte | findByte => exact absurd (hdrStep_buf _ _) hne
  | _ => exact absurd rfl hne

theorem UnitStep.hdr_writer {ils u : Nat} {i : Instr} {x y : CodecUnit} {r : Result} (h : UnitStep ils i x y r)
    (hu : i.unit? = some u) (hne : y.hdr ≠ x.hdr) :
    i = .init u ∨ (∃ p, i = .encode u p) ∨ (∃ b, i = .decode u b ∧ x.ds.state ≠ .data) ∨
      (∃ b, i = .decodeFind u b ∧ x.ds.state ≠ .data) := by
  cases h with
  | initOk | initFailed | encoded => cases hu; simp
  | headerByte u b x hr hs | findByte u b x hr hs => cases hu; simp [hs]
  | _ => exact absurd rfl hne

theorem UnitStep.ds_writer {ils u : Nat} {i : Instr} {x y : CodecUnit} {r : Result} (h : UnitStep ils i x y r)
    (hu : i.unit? = some u) (hne : y.ds ≠ x.ds) :
    i = .init u ∨ i = .decodeReset u ∨ (∃ b, i = .decode u b) ∨
      (∃ b, i = .decodeFind u b ∧ x.ds.state ≠ .data) ∨ (∃ src, i = .decodeCopy u src ∧ x.ds.state = .data) := by
  cases h with
  | initOk | initFailed | reset | headerByte | payloadByte | lastPayloadByte => cases hu; simp
  | findByte u b x hr hs | copied u src x hr hs => cases hu; simp [hs]
  | encodeTooLong | encoded | findInData | copyMismatch => exact absurd rfl hne

/-- Settles O41: an instruction does nothing to the unit, or one unit step, of which each register group has its
writers, or it is a frame header. -/
theorem registersWrittenOnlyByTheirWriters : Obligations.RegistersWrittenOnlyByTheirWriters := by
  intro i s t u x y h hx hy
  have hcap : y.cap = x.cap := eq_of_map_units_eq (exec_sameParameters h).2 hx hy
  rcases exec_unit_eq_next h hx hy with rfl | ⟨hu, r, hs⟩ | ⟨c, n, rfl, hf⟩
  · simp
  · refine ⟨hcap, fun hne => ?_, fun hne => ?_, fun hne => ?_, fun hne => ?_⟩
    · by_contra hi
      have hf := hs.initFields_eq hu hi
      simp only [CodecUnit.initFields, Prod.mk.injEq] at hf
      simp [hf] at hne
    · rcases hs.buf_writer hu hne with h | h | h | h <;> simp [h]
    · rcases hs.hdr_writer hu hne with h | h | h | h <;> simp [h]
    · rcases hs.ds_writer hu hne with h | h | h | h | h <;> simp [h]
  · simp only [CodecUnit.initFields, Prod.mk.injEq] at hf
    simp [hcap, hf]

/-! ### Forms of the operations on a unit -/

/-- The effect of `INIT` on its unit, whatever the unit's status (R71, R72). -/
def initEffect (ils u : Nat) (x : CodecUnit) : UnitOutcome :=
  .next (initUnit ils u x, .usable (initUnit ils u x).usableSpace)

theorem exec_init_eq (u : Nat) (s : State) : exec (.init u) s = onUnit u (initEffect s.ils u) s := rfl

/-- The operations that need an initialised unit, each with its effect on that unit (R151). -/
inductive ReadyOp (u : Nat) : Instr → (CodecUnit → UnitOutcome) → Prop
  | decodeReset : ReadyOp u (.decodeReset u) fun x => .next (x.resetDs, .resetDone)
  | encode (p : List Byte) : ReadyOp u (.encode u p) (encodeUnit p)
  | decode (b : Byte) : ReadyOp u (.decode u b) (decodeUnit b)
  | decodeFind (b : Byte) :
      ReadyOp u (.decodeFind u b) fun x => .next (findUnit b x, .found (foundLength (findUnit b x)))
  | decodeCopy (src : List Byte) : ReadyOp u (.decodeCopy u src) (copyUnit src)

theorem ReadyOp.exec_eq_onReady {u : Nat} {i : Instr} {f : CodecUnit → UnitOutcome} (h : ReadyOp u i f) :
    exec i = onReady u f := by
  cases h <;> rfl

/-- An instruction on a unit is `INIT`, an operation that needs the unit initialised, or a frame header. -/
theorem unit_instr_cases {i : Instr} {u : Nat} (hu : i.unit? = some u) :
    i = .init u ∨ (∃ f, ReadyOp u i f) ∨ ∃ c n, i = .frameHeader u c n := by
  cases i with
  | layoutSize | checksum => cases hu
  | init => cases hu; exact .inl rfl
  | frameHeader v c n => cases hu; exact .inr (.inr ⟨c, n, rfl⟩)
  | decodeReset => cases hu; exact .inr (.inl ⟨_, .decodeReset⟩)
  | encode v p => cases hu; exact .inr (.inl ⟨_, .encode p⟩)
  | decode v b => cases hu; exact .inr (.inl ⟨_, .decode b⟩)
  | decodeFind v b => cases hu; exact .inr (.inl ⟨_, .decodeFind b⟩)
  | decodeCopy v src => cases hu; exact .inr (.inl ⟨_, .decodeCopy src⟩)

/-! ### An operation reads its own unit only -/

/-- Two machines that an operation on unit `u` may not tell apart: the same `ILS`, and the same at unit `u` (R22). -/
def AgreeAt (u : Nat) (s s' : State) : Prop := s.ils = s'.ils ∧ s.units[u]? = s'.units[u]?

/-- From machines that agree at unit `u` an operation goes on to such machines with the same results, or is refused
for the same reason. -/
def ReadsOnly (u : Nat) (f : State → Host.Outcome State Fault Refusal) : Prop :=
  ∀ s s', AgreeAt u s s' →
    (∀ t, f s = .next t → ∃ t' rs, f s' = .next t' ∧ AgreeAt u t t' ∧
      t.results = s.results ++ rs ∧ t'.results = s'.results ++ rs) ∧
    ∀ r, f s = .refused r → f s' = .refused r

theorem readsOnly_next (u : Nat) : ReadsOnly u .next := by
  rintro s s' h
  refine ⟨fun t ht => ?_, nofun⟩
  cases ht
  exact ⟨s', [], rfl, h, by simp, by simp⟩

theorem ReadsOnly.andThen {u : Nat} {f g : State → Host.Outcome State Fault Refusal} (hf : ReadsOnly u f)
    (hg : ReadsOnly u g) : ReadsOnly u fun s => andThen (f s) g := by
  intro s s' h
  obtain ⟨hn, hr⟩ := hf s s' h
  change (∀ t, Machine.andThen (f s) g = .next t → _) ∧ ∀ r, Machine.andThen (f s) g = .refused r → _
  cases hm : f s with
  | fault e => cases e
  | refused e => simp [hr e hm]
  | next m =>
    obtain ⟨m', rs, hm', hagree, hres, hres'⟩ := hn m hm
    obtain ⟨hn, hr⟩ := hg m m' hagree
    simp only [hm', andThen_next]
    refine ⟨fun t ht => ?_, hr⟩
    obtain ⟨t', qs, ht', hagree, hqs, hqs'⟩ := hn t ht
    exact ⟨t', rs ++ qs, ht', hagree, by rw [hqs, hres, List.append_assoc], by rw [hqs', hres', List.append_assoc]⟩

theorem readsOnly_onUnit (u : Nat) (f : Nat → CodecUnit → UnitOutcome) :
    ReadsOnly u fun s => onUnit u (f s.ils) s := by
  rintro s s' ⟨hils, hunit⟩
  cases hx : s.units[u]? with
  | none =>
    have hx' := hunit.symm.trans hx
    simp [onUnit_of_none _ hx, onUnit_of_none _ hx']
  | some x =>
    have hx' := hunit.symm.trans hx
    simp only [onUnit_of_some _ hx, onUnit_of_some _ hx', ← hils]
    rcases f s.ils x with ⟨y, r⟩ | e | e
    · refine ⟨fun t ht => ?_, nofun⟩
      cases ht
      exact ⟨_, [r], rfl, ⟨hils, (setUnit_get_self y hx).trans (setUnit_get_self y hx').symm⟩, rfl, rfl⟩
    · cases e
    · simp

theorem readsOnly_onReady (u : Nat) (f : CodecUnit → UnitOutcome) : ReadsOnly u (onReady u f) :=
  readsOnly_onUnit u fun _ => ifReady f

theorem readsOnly_decodeBytes (u : Nat) (bs : List Byte) : ReadsOnly u (decodeBytes u bs) := by
  induction bs with
  | nil => exact readsOnly_next u
  | cons b bs ih => exact (readsOnly_onReady u (decodeUnit b)).andThen ih

theorem exec_readsOnly {i : Instr} {u : Nat} (hu : i.unit? = some u) : ReadsOnly u (exec i) := by
  rcases unit_instr_cases hu with rfl | ⟨f, hf⟩ | ⟨c, n, rfl⟩
  · exact readsOnly_onUnit u fun ils => initEffect ils u
  · rw [hf.exec_eq_onReady]; exact readsOnly_onReady u f
  · exact readsOnly_decodeBytes u (headerBytes c n)

/-- Settles O48: an instruction on a unit reads only that unit, and writes no other. -/
theorem unitsShareNothing : Obligations.UnitsShareNothing := by
  intro i u s s' hu hils hunit
  obtain ⟨hn, hr⟩ := exec_readsOnly hu s s' ⟨hils, hunit⟩
  refine ⟨fun t ht => ⟨fun v hv => exec_units_ne ht ?_, ?_⟩, hr⟩
  · rw [hu]; exact fun h => hv (Option.some.inj h).symm
  · obtain ⟨t', rs, ht', ⟨-, hagree⟩, hres, hres'⟩ := hn t ht
    exact ⟨t', rs, ht', hagree.symm, hres, hres'⟩

/-! ### Views of the machine that no operation sees through -/

/-- An outcome with the next state replaced by its image. -/
def mapNext {σ τ : Type} (g : σ → τ) : Host.Outcome σ Fault Refusal → Host.Outcome τ Fault Refusal
  | .next s => .next (g s)
  | .fault e => .fault e
  | .refused e => .refused e

@[simp] theorem mapNext_next {σ τ : Type} (g : σ → τ) (s : σ) : mapNext g (.next s) = .next (g s) := rfl
@[simp] theorem mapNext_refused {σ τ : Type} (g : σ → τ) (e : Refusal) : mapNext g (.refused e) = .refused e := rfl

/-- Outcomes that a view does not tell apart are outcomes with the same image. -/
theorem sameView_iff {view : State → State} {o o' : Host.Outcome State Fault Refusal} :
    sameView view o o' ↔ mapNext view o = mapNext view o' := by
  cases o <;> cases o' <;> simp [sameView, mapNext]

/-- An operation sees only the view: applied to the view of a state it has the outcome it has on the state, as far as
the view of outcomes shows. -/
def SeesOnly {σ τ : Type} (view : σ → σ) (out : τ → τ) (f : σ → Host.Outcome τ Fault Refusal) : Prop :=
  ∀ s, mapNext out (f (view s)) = mapNext out (f s)

theorem SeesOnly.congr {σ τ : Type} {view : σ → σ} {out : τ → τ} {f : σ → Host.Outcome τ Fault Refusal}
    (h : SeesOnly view out f) {s s' : σ} (hs : view s = view s') : mapNext out (f s) = mapNext out (f s') := by
  rw [← h s, hs, h s']

theorem SeesOnly.andThen {view : State → State} {f g : State → Host.Outcome State Fault Refusal}
    (hf : SeesOnly view view f) (hg : SeesOnly view view g) : SeesOnly view view fun s => andThen (f s) g := by
  have push (o : Host.Outcome State Fault Refusal) :
      mapNext view (Machine.andThen (mapNext view o) g) = mapNext view (Machine.andThen o g) := by
    cases o with
    | next t => exact hg t
    | _ => rfl
  intro s
  rw [← push, hf s, push]

/-- A view of each unit, taken of every unit of the machine. -/
def State.viewUnits (view : CodecUnit → CodecUnit) (s : State) : State := { s with units := s.units.map view }

/-- A view of one unit that no operation on a unit sees through. -/
structure UnitView (view : CodecUnit → CodecUnit) : Prop where
  idem : ∀ x, view (view x) = view x
  init : ∀ ils u, SeesOnly view (Prod.map view id) (initEffect ils u)
  ready : ∀ u i f, ReadyOp u i f → SeesOnly view (Prod.map view id) (ifReady f)

section
variable {view : CodecUnit → CodecUnit}

theorem UnitView.idem_viewUnits (h : UnitView view) (s : State) :
    (s.viewUnits view).viewUnits view = s.viewUnits view := by
  simp [State.viewUnits, h.idem]

/-- The view of what an operation leaves is what the view of its effect leaves of the view. -/
theorem mapNext_finish (s : State) (u : Nat) (o : UnitOutcome) :
    mapNext (State.viewUnits view) (s.finish u o) = (s.viewUnits view).finish u (mapNext (Prod.map view id) o) := by
  rcases o with ⟨y, r⟩ | e | e
  · simp [State.viewUnits, State.setUnit, State.deliver, List.map_set]
  · cases e
  · rfl

theorem UnitView.onUnit (h : UnitView view) (u : Nat) {f : Nat → CodecUnit → UnitOutcome}
    (hf : ∀ ils, SeesOnly view (Prod.map view id) (f ils)) :
    SeesOnly (State.viewUnits view) (State.viewUnits view) fun s => Machine.onUnit u (f s.ils) s := by
  intro s
  change mapNext _ (Machine.onUnit u (f s.ils) (s.viewUnits view)) = mapNext _ (Machine.onUnit u (f s.ils) s)
  have hu : (s.viewUnits view).units[u]? = s.units[u]?.map view := List.getElem?_map
  cases hx : s.units[u]? with
  | none =>
    rw [hx] at hu
    rw [onUnit_of_none _ hx, onUnit_of_none _ hu]
  | some x =>
    rw [hx] at hu
    rw [onUnit_of_some _ hx, onUnit_of_some _ hu, mapNext_finish, mapNext_finish, h.idem_viewUnits]
    exact congrArg _ (hf s.ils x)

theorem UnitView.readyOp (h : UnitView view) {u : Nat} {i : Instr} {f : CodecUnit → UnitOutcome}
    (hf : ReadyOp u i f) : SeesOnly (State.viewUnits view) (State.viewUnits view) (onReady u f) :=
  h.onUnit u fun _ => h.ready u i f hf

theorem UnitView.decodeBytes (h : UnitView view) (u : Nat) (bs : List Byte) :
    SeesOnly (State.viewUnits view) (State.viewUnits view) (Machine.decodeBytes u bs) := by
  induction bs with
  | nil => exact fun s => congrArg Host.Outcome.next (h.idem_viewUnits s)
  | cons b bs ih => exact (h.readyOp (.decode b)).andThen ih

/-- An operation that touches no unit sees no unit. -/
theorem UnitView.deliver (h : UnitView view) (f : Nat → Result) :
    SeesOnly (State.viewUnits view) (State.viewUnits view) fun s => .next (s.deliver (f s.ils)) :=
  fun s => congrArg (fun v : State => Host.Outcome.next (v.deliver (f s.ils))) (h.idem_viewUnits s)

/-- What no operation on a unit sees, no instruction sees. -/
theorem UnitView.exec (h : UnitView view) (i : Instr) :
    SeesOnly (State.viewUnits view) (State.viewUnits view) (Machine.exec i) := by
  cases i with
  | layoutSize => exact h.deliver .layoutSize
  | checksum bs => exact h.deliver fun _ => .checksum (Machine.checksum bs)
  | init u => exact h.onUnit u fun ils => h.init ils u
  | frameHeader u c n => exact h.decodeBytes u (headerBytes c n)
  | decodeReset u => exact h.readyOp .decodeReset
  | encode u p => exact h.readyOp (.encode p)
  | decode u b => exact h.readyOp (.decode b)
  | decodeFind u b => exact h.readyOp (.decodeFind b)
  | decodeCopy u src => exact h.readyOp (.decodeCopy src)

theorem UnitView.sameView_exec (h : UnitView view) (i : Instr) {s s' : State}
    (hs : s.viewUnits view = s'.viewUnits view) :
    sameView (State.viewUnits view) (Machine.exec i s) (Machine.exec i s') :=
  sameView_iff.mpr ((h.exec i).congr hs)

end

/-! ### The marker registers -/

@[simp] theorem eraseMarks_status (x : CodecUnit) : x.eraseMarks.status = x.status := rfl
@[simp] theorem eraseMarks_checksum (x : CodecUnit) : x.eraseMarks.hdr.checksum = x.hdr.checksum := rfl
@[simp] theorem eraseMarks_length (x : CodecUnit) : x.eraseMarks.hdr.length = x.hdr.length := rfl
@[simp] theorem eraseMarks_ds (x : CodecUnit) : x.eraseMarks.ds = x.ds := rfl
@[simp] theorem eraseMarks_usableSpace (x : CodecUnit) : x.eraseMarks.usableSpace = x.usableSpace := rfl
@[simp] theorem eraseMarks_buf (x : CodecUnit) : x.eraseMarks.buf = x.buf := rfl

theorem hdrStep_eraseMarks (b : Byte) (x : CodecUnit) :
    (hdrStep b x.eraseMarks).eraseMarks = (hdrStep b x).eraseMarks := by
  cases h : x.ds.state with
  | head1 | head2 => simp only [hdrStep, eraseMarks_ds, h, head1Eval, head2Eval]; split <;> rfl
  | _ => simp only [hdrStep, eraseMarks_ds, h]; rfl

theorem store_eraseMarks (x : CodecUnit) (off : Nat) (bs : List Byte) :
    x.eraseMarks.store off bs = (x.store off bs).map CodecUnit.eraseMarks := by
  by_cases h : x.inBuf off bs.length
  · rw [store_of_inBuf h, store_of_inBuf (x := x.eraseMarks) h]; rfl
  · simp [CodecUnit.store, h]

theorem load_eraseMarks (x : CodecUnit) (off n : Nat) : x.eraseMarks.load off n = x.load off n := rfl

theorem completePayload_eraseMarks (x : CodecUnit) :
    mapNext (Prod.map CodecUnit.eraseMarks id) (completePayload x.eraseMarks) =
      mapNext (Prod.map CodecUnit.eraseMarks id) (completePayload x) := by
  have hload : x.eraseMarks.resetDs.load 0 x.hdr.length.toNat = x.resetDs.load 0 x.hdr.length.toNat := rfl
  simp only [completePayload, eraseMarks_length, hload]
  cases x.resetDs.load 0 x.hdr.length.toNat <;> rfl

theorem seesOnly_encodeUnit (p : List Byte) :
    SeesOnly CodecUnit.eraseMarks (Prod.map CodecUnit.eraseMarks id) (encodeUnit p) := by
  intro x
  simp only [encodeUnit, payloadTooLong, frameOverruns, eraseMarks_usableSpace, store_eraseMarks]
  split
  · rfl
  split
  · rfl
  cases x.store 0 (frameOf (checksum p) p) <;> rfl

theorem seesOnly_payloadByte (b : Byte) :
    SeesOnly CodecUnit.eraseMarks (Prod.map CodecUnit.eraseMarks id) (payloadByte b) := by
  intro x
  simp only [payloadByte, eraseMarks_ds, store_eraseMarks]
  cases x.store x.ds.bytesCopied.toNat [b] with
  | none => rfl
  | some y =>
    simp only [Option.map_some]
    by_cases hi : payloadIncomplete y.countByte
    · rw [if_pos hi, if_pos (show payloadIncomplete y.eraseMarks.countByte from hi)]; rfl
    · rw [if_neg hi, if_neg (show ¬ payloadIncomplete y.eraseMarks.countByte from hi)]
      exact completePayload_eraseMarks y.countByte

theorem seesOnly_decodeUnit (b : Byte) :
    SeesOnly CodecUnit.eraseMarks (Prod.map CodecUnit.eraseMarks id) (decodeUnit b) := by
  intro x
  by_cases hs : x.ds.state = .data
  · rw [decodeUnit_data hs, decodeUnit_data (by simpa using hs), seesOnly_payloadByte]
  · simp [decodeUnit_header hs, decodeUnit_header (x := x.eraseMarks) hs, hdrStep_eraseMarks]

theorem findUnit_eraseMarks (b : Byte) (x : CodecUnit) :
    (findUnit b x.eraseMarks).eraseMarks = (findUnit b x).eraseMarks := by
  by_cases hs : x.ds.state = .data
  · simp only [findUnit, eraseMarks_ds, hs, if_true]; rfl
  · simp only [findUnit, eraseMarks_ds, hs, if_false, hdrStep_eraseMarks]

theorem foundLength_eraseMarks (x : CodecUnit) : foundLength x.eraseMarks = foundLength x := rfl

theorem seesOnly_copyUnit (src : List Byte) :
    SeesOnly CodecUnit.eraseMarks (Prod.map CodecUnit.eraseMarks id) (copyUnit src) := by
  intro x
  have hreset : x.eraseMarks.resetDs = x.resetDs.eraseMarks := rfl
  simp only [copyUnit, copyMismatch, eraseMarks_ds, eraseMarks_length, hreset, store_eraseMarks]
  split
  · rfl
  cases x.resetDs.store 0 src with
  | none => rfl
  | some y =>
    simp only [Option.map_some, eraseMarks_length, load_eraseMarks]
    cases y.load 0 y.hdr.length.toNat <;> rfl

/-- No operation on a unit reads a marker register (R11). -/
theorem unitView_eraseMarks : UnitView CodecUnit.eraseMarks where
  idem _ := rfl
  init _ _ _ := rfl
  ready u i f hf x := by
    unfold ifReady
    rw [eraseMarks_status]
    cases x.status with
    | powerOn | failed => rfl
    | ready =>
      cases hf with
      | decodeReset => rfl
      | encode p => exact seesOnly_encodeUnit p x
      | decode b => exact seesOnly_decodeUnit b x
      | decodeFind b =>
        have hn : foundLength (findUnit b x.eraseMarks) = foundLength (findUnit b x) := by
          rw [← foundLength_eraseMarks, findUnit_eraseMarks, foundLength_eraseMarks]
        simp [findUnit_eraseMarks, hn]
      | decodeCopy src => exact seesOnly_copyUnit src x

/-- Settles O50: blanking the marker registers is a view no operation sees through. -/
theorem markRegistersAreNeverRead : Obligations.MarkRegistersAreNeverRead :=
  fun i _ _ h => unitView_eraseMarks.sameView_exec i h

/-! ### The registers of an uninitialised unit -/

@[simp] theorem specified_status (x : CodecUnit) : x.specified.status = x.status := by
  unfold CodecUnit.specified
  cases h : x.status <;> simp [h]

theorem specified_of_ready {x : CodecUnit} (h : x.status = .ready) : x.specified = x := by
  simp [CodecUnit.specified, h]

/-- `INIT` reads `CAP` and the count of `INIT`s, and writes every register (R71, R72). -/
theorem initUnit_specified (ils u : Nat) (x : CodecUnit) : initUnit ils u x.specified = initUnit ils u x := by
  unfold CodecUnit.specified
  cases x.status <;> rfl

/-- No operation on a unit reads what an `INIT` that succeeded has not written: it is refused first (R151, R153). -/
theorem unitView_specified : UnitView CodecUnit.specified where
  idem x := by cases h : x.status <;> simp [CodecUnit.specified, h]
  init ils u x := by simp only [initEffect, initUnit_specified]
  ready u i f _ x := by
    cases h : x.status with
    | ready => rw [specified_of_ready h]
    | _ => simp [ifReady, h]

/-- Settles O51: forgetting what an uninitialised unit holds is a view no operation sees through. -/
theorem unspecifiedRegistersAreNeverSeen : Obligations.UnspecifiedRegistersAreNeverSeen :=
  fun i _ _ h => unitView_specified.sameView_exec i h

end Sys2Proof.Machine

/-! ## Sequences of operations (20_memory.md R38, 60_exceptions.md R130): the port, the refusals, operations on
different units -/

namespace Sys2Proof

/-! ### The port item of an instruction -/

/-- A well-formed instruction is read back from its port item (R50, R57, R61). -/
theorem decode_encode {i : Instr} (h : i.wf = true) : decode (encode i) = .ok i := by
  cases i with
  | checksum | encode | decodeCopy => exact if_pos (of_decide_eq_true h)
  | frameHeader u c n => exact congrArg (fun k => Except.ok (Instr.frameHeader u c k)) (lengthOfBytes_lengthByte n)
  | _ => rfl

end Sys2Proof

namespace Sys2Proof.Machine

/-! ### The operation rules ignore the port -/

/-- The machine with another port. -/
def State.withPort (p : List PortItem) (s : State) : State := { s with port := p }

/-- An operation run with another port has the outcome it has, with that port in the next state. -/
def IgnoresPort (f : State → Host.Outcome State Fault Refusal) : Prop :=
  ∀ p s, f (s.withPort p) = mapNext (State.withPort p) (f s)

theorem andThen_mapNext (g : State → State) (o : Host.Outcome State Fault Refusal)
    (f : State → Host.Outcome State Fault Refusal) :
    andThen (mapNext g o) f = andThen o fun s => f (g s) := by
  cases o <;> rfl

theorem mapNext_andThen (g : State → State) (o : Host.Outcome State Fault Refusal)
    (f : State → Host.Outcome State Fault Refusal) :
    mapNext g (andThen o f) = andThen o fun s => mapNext g (f s) := by
  cases o <;> rfl

theorem IgnoresPort.andThen {f g : State → Host.Outcome State Fault Refusal} (hf : IgnoresPort f)
    (hg : IgnoresPort g) : IgnoresPort fun s => andThen (f s) g := by
  intro p s
  simp only [hf p s, andThen_mapNext, mapNext_andThen, hg p _]

theorem ignoresPort_onUnit (u : Nat) (f : Nat → CodecUnit → UnitOutcome) :
    IgnoresPort fun s => onUnit u (f s.ils) s := by
  intro p s
  change onUnit u (f s.ils) (s.withPort p) = mapNext (State.withPort p) (onUnit u (f s.ils) s)
  cases hx : s.units[u]? with
  | none => rw [onUnit_of_none _ hx, onUnit_of_none _ (s := s.withPort p) hx]; rfl
  | some x =>
    rw [onUnit_of_some _ hx, onUnit_of_some _ (s := s.withPort p) hx]
    cases f s.ils x <;> rfl

theorem ignoresPort_onReady (u : Nat) (f : CodecUnit → UnitOutcome) : IgnoresPort (onReady u f) :=
  ignoresPort_onUnit u fun _ => ifReady f

theorem ignoresPort_decodeBytes (u : Nat) (bs : List Byte) : IgnoresPort (decodeBytes u bs) := by
  induction bs with
  | nil => exact fun _ _ => rfl
  | cons b bs ih => exact (ignoresPort_onReady u (decodeUnit b)).andThen ih

/-- An instruction that acts on no unit gives a result that depends on `ILS` alone, and does nothing else. -/
theorem exec_of_unit?_eq_none {i : Instr} (h : i.unit? = none) :
    ∃ f : Nat → Result, ∀ s, exec i s = .next (s.deliver (f s.ils)) := by
  cases i with
  | layoutSize => exact ⟨.layoutSize, fun _ => rfl⟩
  | checksum bs => exact ⟨fun _ => .checksum (checksum bs), fun _ => rfl⟩
  | _ => cases h

theorem exec_ignoresPort (i : Instr) : IgnoresPort (exec i) := by
  cases hu : i.unit? with
  | none =>
    obtain ⟨f, hf⟩ := exec_of_unit?_eq_none hu
    intro p s
    rw [hf, hf]; rfl
  | some u =>
    rcases unit_instr_cases hu with rfl | ⟨f, hf⟩ | ⟨c, n, rfl⟩
    · exact ignoresPort_onUnit u fun ils => initEffect ils u
    · rw [hf.exec_eq_onReady]; exact ignoresPort_onReady u f
    · exact ignoresPort_decodeBytes u (headerBytes c n)

/-! ### A run over the port -/

theorem run_of_step_next {M : Host.Core} {s t : M.State} (h : M.step s = .next t) (k : Nat) :
    M.run (k + 1) s = M.run k t := by
  simp [Host.Core.run, h]

theorem run_of_step_refused {M : Host.Core} {s : M.State} {r : M.Refusal} (h : M.step s = .refused r) (k : Nat) :
    M.run (k + 1) s = .refused r := by
  simp [Host.Core.run, h]

/-- The machine's run, over the machine's own types. -/
def runSteps (k : Nat) (s : State) : Host.Outcome State Fault Refusal := Host.Core.run core k s

theorem runSteps_succ (k : Nat) (s : State) : runSteps (k + 1) s = andThen (step s) (runSteps k) := by
  cases h : step s with
  | next t => exact run_of_step_next (M := core) h k
  | fault e => cases e
  | refused e => exact run_of_step_refused (M := core) h k

/-- A step over the port of a well-formed instruction runs it with the rest of the port put aside. -/
theorem step_encode {s : State} {i : Instr} {rest : List PortItem} (hi : i.wf = true)
    (hp : s.port = encode i :: rest) :
    step s = mapNext (State.withPort rest) (exec i (s.withPort [])) := by
  rw [step_of_port_cons hp, issue_of_decode_ok (decode_encode hi)]
  exact exec_ignoresPort i rest (s.withPort [])

/-- Settles O9, by induction on the operations: an operation runs the same whatever waits on the port behind it. -/
theorem portRunsOperationsInOrder : Obligations.PortRunsOperationsInOrder := by
  intro is
  change ∀ s : State, (∀ i ∈ is, i.wf = true) → s.port = is.map encode →
    runSteps is.length s = execAll is (s.withPort [])
  induction is with
  | nil => intro s _ hp; exact congrArg (fun p => Host.Outcome.next (s.withPort p)) hp
  | cons i is ih =>
    intro s hwf hp
    have hrest (t : State) : runSteps is.length (t.withPort (is.map encode)) = execAll is (t.withPort []) :=
      ih _ (fun j hj => hwf j (List.mem_cons_of_mem i hj)) rfl
    calc runSteps (is.length + 1) s
        = andThen (mapNext (State.withPort (is.map encode)) (exec i (s.withPort []))) (runSteps is.length) := by
          rw [runSteps_succ, step_encode (hwf i List.mem_cons_self) hp]
      _ = andThen (exec i (s.withPort [])) fun t => execAll is (t.withPort []) := by
          simp only [andThen_mapNext, hrest]
      _ = andThen (exec i (s.withPort [])) (execAll is) := by
          rw [← andThen_mapNext, ← exec_ignoresPort i [] (s.withPort [])]; rfl

/-! ### What a sound machine refuses -/

/-- The refusals the spec names (R59, R87, R151, R153), and that of a port item that is no instruction (log entry
2). -/
def Refusal.Named (r : Refusal) : Prop :=
  (∃ e, r = .undecodable e) ∨ (∃ u, r = .noSuchUnit u) ∨ r = .unitNotInitialised ∨ r = .unitInitFailed ∨
    r = .encodeOverrun

/-- A sound initialised unit refuses nothing but the overrun window: every access is inside `BUF` (R36, R87). -/
theorem ReadyOp.refuses_only_encodeOverrun {u ils : Nat} {i : Instr} {f : CodecUnit → UnitOutcome} {x : CodecUnit}
    {r : Refusal} (hf : ReadyOp u i f) (hx : x.Sound ils) (hr : x.status = .ready) (h : f x = .refused r) :
    r = .encodeOverrun := by
  obtain ⟨-, -, -, -, hdata⟩ := hx.2.1 hr
  cases hf with
  | decodeReset | decodeFind => cases h
  | encode p => exact (encodeUnit_eq_refused h).2.2
  | decode b =>
    obtain ⟨hs, -, hout⟩ := decodeUnit_eq_refused h
    exact absurd (hdata hs).symm hout
  | decodeCopy src =>
    obtain ⟨hs, -, hout⟩ := copyUnit_eq_refused h
    exact absurd (hdata hs).1 hout

theorem ReadyOp.refusal_named {u : Nat} {i : Instr} {f : CodecUnit → UnitOutcome} {s : State} {r : Refusal}
    (hf : ReadyOp u i f) (hs : s.Sound) (h : onReady u f s = .refused r) : r.Named := by
  rcases onReady_eq_refused.mp h with ⟨-, rfl⟩ | ⟨x, hx, ⟨-, rfl⟩ | ⟨-, rfl⟩ | ⟨hr, hfx⟩⟩
  · exact .inr (.inl ⟨u, rfl⟩)
  · exact .inr (.inr (.inl rfl))
  · exact .inr (.inr (.inr (.inl rfl)))
  · have hsound : x.Sound s.ils := hs.2 x (List.mem_of_getElem? hx)
    exact .inr (.inr (.inr (.inr (hf.refuses_only_encodeOverrun hsound hr hfx))))

/-- `INIT` is refused on an absent unit only (R59). -/
theorem exec_init_eq_refused {u : Nat} {s : State} {r : Refusal} (h : exec (.init u) s = .refused r) :
    r = .noSuchUnit u := by
  rw [exec_init_eq] at h
  cases hx : s.units[u]? with
  | none => rw [onUnit_of_none _ hx] at h; exact (Host.Outcome.refused.inj h).symm
  | some x => rw [onUnit_of_some _ hx] at h; cases h

/-- Each byte of the wire finds the machine sound, as the bytes before it left it so. -/
theorem decodeBytes_refusal_named {u : Nat} {bs : List Byte} {s : State} {r : Refusal} (hs : s.Sound)
    (h : decodeBytes u bs s = .refused r) : r.Named := by
  induction bs generalizing s with
  | nil => cases h
  | cons b bs ih =>
    rw [decodeBytes] at h
    cases hm : execDecode u b s with
    | next m =>
      rw [hm, andThen_next] at h
      exact ih (exec_sound (i := .decode u b) hm hs) h
    | fault e => cases e
    | refused e =>
      rw [hm, andThen_refused] at h
      cases h
      exact (ReadyOp.decode b).refusal_named hs hm

theorem exec_refusal_named {i : Instr} {s : State} {r : Refusal} (hs : s.Sound) (h : exec i s = .refused r) :
    r.Named := by
  cases hu : i.unit? with
  | none =>
    obtain ⟨f, hf⟩ := exec_of_unit?_eq_none hu
    rw [hf] at h; cases h
  | some u =>
    rcases unit_instr_cases hu with rfl | ⟨f, hf⟩ | ⟨c, n, rfl⟩
    · exact .inr (.inl ⟨u, exec_init_eq_refused h⟩)
    · rw [hf.exec_eq_onReady] at h; exact hf.refusal_named hs h
    · exact decodeBytes_refusal_named hs h

/-- Every way a step is refused: its port item is no instruction, or the instruction is refused. -/
theorem step_eq_refused {s : State} {r : Refusal} (h : step s = .refused r) :
    (∃ e, r = .undecodable e) ∨ ∃ i rest, exec i (s.withPort rest) = .refused r := by
  cases hp : s.port with
  | nil => rw [step_of_port_nil hp] at h; cases h
  | cons item rest =>
    rw [step_of_port_cons hp] at h
    cases hd : decode item with
    | error e => simp only [issue, hd] at h; exact .inl ⟨e, (Host.Outcome.refused.inj h).symm⟩
    | ok i => rw [issue_of_decode_ok hd] at h; exact .inr ⟨i, rest, h⟩

/-- Settles O14: there is no fault, and what an instruction refuses from a sound state is named. -/
theorem soundStatesNeverFault : Obligations.SoundStatesNeverFault := by
  refine ⟨fun s => ?_, fun s r hs h => ?_⟩
  · cases hstep : step s with
    | next t => exact .inl ⟨t, rfl⟩
    | fault f => cases f
    | refused r => exact .inr ⟨r, rfl⟩
  · rcases step_eq_refused h with he | ⟨i, rest, hi⟩
    · exact .inl he
    · exact exec_refusal_named (s := s.withPort rest) hs hi

/-! ### Operations on different units -/

theorem execAll_pair_eq_next {i j : Instr} {s t : State} :
    execAll [i, j] s = .next t ↔ ∃ m, exec i s = .next m ∧ exec j m = .next t := by
  simp only [execAll, andThen_eq_next, Host.Outcome.next.injEq, exists_eq_right]

theorem AgreeAt.symm {u : Nat} {s s' : State} (h : AgreeAt u s s') : AgreeAt u s' s := ⟨h.1.symm, h.2.symm⟩

/-- An instruction leaves the machine as any other unit sees it (R22). -/
theorem exec_agreeAt_ne {i : Instr} {v : Nat} {s t : State} (h : exec i s = .next t) (hv : i.unit? ≠ some v) :
    AgreeAt v s t :=
  ⟨(exec_sameParameters h).1.symm, (exec_units_ne h hv).symm⟩

theorem exec_port {i : Instr} {s t : State} (h : exec i s = .next t) : t.port = s.port := by
  obtain ⟨-, -, hp, -⟩ := exec_delivers h
  exact hp

/-- Settles O49: each instruction finds its unit as it was, whether the other ran before it or not. -/
theorem differentUnitsCommute : Obligations.DifferentUnitsCommute := by
  intro i j u v s t hi hj huv h
  have hiv : ∀ k, k ≠ u → i.unit? ≠ some k := fun k hk h => hk (Option.some.inj (h.symm.trans hi))
  have hjv : ∀ k, k ≠ v → j.unit? ≠ some k := fun k hk h => hk (Option.some.inj (h.symm.trans hj))
  obtain ⟨m, hm, ht⟩ := execAll_pair_eq_next.mp h
  have hms : AgreeAt v m s := (exec_agreeAt_ne hm (hiv v huv.symm)).symm
  obtain ⟨m', rj, hm', ⟨htm'_ils, htm'_v⟩, htr, hmr'⟩ := (exec_readsOnly hj m s hms).1 t ht
  have hsm' : AgreeAt u s m' := exec_agreeAt_ne hm' (hjv u huv)
  obtain ⟨t', ri, ht', ⟨-, hmt'⟩, hmr, htr'⟩ := (exec_readsOnly hi s m' hsm').1 m hm
  refine ⟨t', ri, rj, execAll_pair_eq_next.mpr ⟨m', hm', ht'⟩, List.ext_getElem? fun k => ?_, ?_, ?_, ?_, ?_⟩
  · by_cases hku : k = u
    · subst hku; rw [← hmt', exec_units_ne ht (hjv k huv)]
    · rw [exec_units_ne ht' (hiv k hku)]
      by_cases hkv : k = v
      · subst hkv; exact htm'_v.symm
      · rw [exec_units_ne hm' (hjv k hkv), exec_units_ne ht (hjv k hkv), exec_units_ne hm (hiv k hku)]
  · rw [(exec_sameParameters ht').1, htm'_ils]
  · rw [exec_port ht', exec_port hm', exec_port ht, exec_port hm]
  · rw [htr, hmr]
  · rw [htr', hmr']

end Sys2Proof.Machine

/-! ## The encodings of 30_encoding.md: codes, port items, the length field, a frame header from the wire -/

namespace Sys2Proof

/-! ### Codes (R55, R58, R59) -/

/-- A code that stands for an operation is that operation's code (R58). -/
theorem code_of_opOfCode? {c : BitVec 4} {op : Op} (h : opOfCode? c = some op) : op.code = c := by
  revert c op
  decide

theorem opOfCode?_of_reserved {c : BitVec 4} (h : 8 ≤ c.toNat) : opOfCode? c = none := by
  revert c
  decide

/-- Settles O5: the code of each state is read back, and the seven codes left over stand for none. -/
theorem stateCodesNameNineStates : Obligations.StateCodesNameNineStates := by
  refine ⟨fun r => ?_, by decide⟩
  cases r <;> rfl

/-! ### The fields of a command (R57, R58, R61) -/

theorem takeNoUnit_eq_ok {c : Command} {k : Except DecodeError Instr} {i : Instr} :
    takeNoUnit c k = .ok i ↔ c.unit = none ∧ k = .ok i := by
  unfold takeNoUnit
  cases c.unit <;> simp

theorem takeUnit_eq_ok {c : Command} {k : Nat → Except DecodeError Instr} {i : Instr} :
    takeUnit c k = .ok i ↔ ∃ u, c.unit = some u ∧ k u = .ok i := by
  unfold takeUnit
  cases c.unit <;> simp

theorem takeNothing_eq_ok {c : Command} {k i : Instr} :
    takeNothing c k = .ok i ↔ c.operand = .none ∧ k = i := by
  unfold takeNothing
  cases c.operand <;> simp

theorem takeByte_eq_ok {c : Command} {k : Byte → Instr} {i : Instr} :
    takeByte c k = .ok i ↔ ∃ b, c.operand = .byte b ∧ k b = i := by
  unfold takeByte
  cases c.operand <;> simp

theorem takeSeq_eq_ok {c : Command} {k : List Byte → Instr} {i : Instr} :
    takeSeq c k = .ok i ↔ ∃ s, c.operand = .seq s ∧ seqOk s ∧ k s = i := by
  unfold takeSeq
  cases c.operand with
  | seq s => by_cases hs : seqOk s <;> simp [hs]
  | _ => simp

/-- The fields an operation takes are the fields its instruction is encoded with, and well formed (R58, R61). -/
theorem encode_of_decodeOp {c : Command} {op : Op} {i : Instr} (h : decodeOp c op = .ok i) :
    encode i = .command ⟨op.code, c.unit, c.operand⟩ ∧ i.wf = true := by
  cases op with
  | layoutSize =>
    simp only [decodeOp, takeNoUnit_eq_ok, takeNothing_eq_ok] at h
    obtain ⟨hu, ho, rfl⟩ := h
    rw [hu, ho]; exact ⟨rfl, rfl⟩
  | checksum =>
    simp only [decodeOp, takeNoUnit_eq_ok, takeSeq_eq_ok] at h
    obtain ⟨hu, s, ho, hs, rfl⟩ := h
    rw [hu, ho]; exact ⟨rfl, decide_eq_true hs⟩
  | init | decodeReset =>
    simp only [decodeOp, takeUnit_eq_ok, takeNothing_eq_ok] at h
    obtain ⟨u, hu, ho, rfl⟩ := h
    rw [hu, ho]; exact ⟨rfl, rfl⟩
  | encode | decodeCopy =>
    simp only [decodeOp, takeUnit_eq_ok, takeSeq_eq_ok] at h
    obtain ⟨u, hu, s, ho, hs, rfl⟩ := h
    rw [hu, ho]; exact ⟨rfl, decide_eq_true hs⟩
  | decode | decodeFind =>
    simp only [decodeOp, takeUnit_eq_ok, takeByte_eq_ok] at h
    obtain ⟨u, hu, b, ho, rfl⟩ := h
    rw [hu, ho]; exact ⟨rfl, rfl⟩

theorem encode_of_decodeCommand {c : Command} {i : Instr} (h : decodeCommand c = .ok i) :
    encode i = .command c ∧ i.wf = true := by
  unfold decodeCommand at h
  split at h
  · next op hop =>
    obtain ⟨he, hwf⟩ := encode_of_decodeOp h
    rw [code_of_opOfCode? hop] at he
    exact ⟨he, hwf⟩
  · cases h

/-- Wire bytes that decode are the marker and five bytes, of which the last four are the length (R50, R51). -/
theorem decodeHeader_eq_ok {u : Nat} {bytes : List Byte} {i : Instr} (h : decodeHeader u bytes = .ok i) :
    ∃ c a b d e, bytes = [mark0, mark1, mark2, c, a, b, d, e] ∧ i = .frameHeader u c (lengthOfBytes a b d e) := by
  unfold decodeHeader at h
  split at h
  · next c a b d e =>
    split at h
    · next hm =>
      obtain ⟨rfl, rfl, rfl⟩ := hm
      exact ⟨c, a, b, d, e, rfl, (Except.ok.inj h).symm⟩
    · cases h
  · cases h

theorem encode_of_decodeHeader {u : Nat} {bytes : List Byte} {i : Instr} (h : decodeHeader u bytes = .ok i) :
    encode i = .wire u bytes ∧ i.wf = true := by
  obtain ⟨c, a, b, d, e, rfl, rfl⟩ := decodeHeader_eq_ok h
  rw [encode, headerBytes, lengthBytes_lengthOfBytes]
  exact ⟨rfl, rfl⟩

/-! ### Decoding and encoding -/

/-- Settles O1: each field of a port item carries its operand whole, and the four length bytes make the length. -/
theorem decodeOfEncodeIsTheInstruction : Obligations.DecodeOfEncodeIsTheInstruction :=
  fun _ => decode_encode

/-- Settles O2: the decoder reads every field of the item, so the item is made again from what it read. -/
theorem encodeOfDecodeIsTheItem : Obligations.EncodeOfDecodeIsTheItem := by
  intro w i h
  cases w with
  | command c => exact encode_of_decodeCommand h
  | wire u bytes => exact encode_of_decodeHeader h

/-- Settles O3: the decoder evaluated on each item. -/
theorem sampleItemsDecode : Obligations.SampleItemsDecode :=
  ⟨rfl, rfl, rfl, rfl, rfl, rfl, rfl, rfl, rfl⟩

/-! ### The bytes of a header (R50, R51) -/

theorem lengthByte_eq_ofNat (n : U32) (k : Nat) : lengthByte n k = BitVec.ofNat 8 (n.toNat / 2 ^ (8 * k)) :=
  BitVec.eq_of_toNat_eq (by rw [toNat_lengthByte, BitVec.toNat_ofNat])

theorem getElem?_headerBytes_length (c : Byte) (n : U32) {k : Nat} (hk : k < 4) :
    (headerBytes c n)[4 + k]? = some (lengthByte n k) := by
  interval_cases k <;> rfl

/-- The header bytes written out. -/
theorem headerBytes_eq (c : Byte) (n : U32) : headerBytes c n = [0x4C, 0x4D, 0x58, c,
    BitVec.ofNat 8 n.toNat, BitVec.ofNat 8 (n.toNat / 2 ^ 8),
    BitVec.ofNat 8 (n.toNat / 2 ^ 16), BitVec.ofNat 8 (n.toNat / 2 ^ 24)] := by
  simp only [headerBytes, lengthBytes, lengthByte_eq_ofNat, Nat.mul_zero, Nat.pow_zero, Nat.div_one, Nat.reduceMul]
  rfl

end Sys2Proof

namespace Sys2Proof.Machine

/-- Settles O52: the codes are evaluated; of `DECODE`'s results `success` alone has code 1 and a length. -/
theorem resultBusCodes : Obligations.ResultBusCodes := by
  refine ⟨rfl, fun _ => rfl, rfl, rfl, rfl, rfl, fun _ => rfl, fun _ => rfl, fun _ => rfl, fun _ => rfl,
    fun _ => rfl, fun r => ?_⟩
  cases r with
  | pending | checksumFailure => exact iff_of_false (by decide) nofun
  | success n => exact iff_of_true rfl ⟨n, rfl⟩

/-! ### What is refused (R59) -/

theorem issue_of_decode_error {item : PortItem} {e : DecodeError} (h : decode item = .error e) (s : State) :
    issue item s = .refused (.undecodable e) := by
  simp [issue, h]

theorem decode_command_of_reserved {c : Command} (h : 8 ≤ c.op.toNat) :
    decode (.command c) = .error (.reservedCode c.op) := by
  simp [decode, decodeCommand, opOfCode?_of_reserved h]

/-- Every instruction on a unit the machine does not have is refused, a frame header at its first byte. -/
theorem exec_of_absent {i : Instr} {u : Nat} {s : State} (hu : i.unit? = some u) (h : s.units[u]? = none) :
    exec i s = .refused (.noSuchUnit u) := by
  rcases unit_instr_cases hu with rfl | ⟨f, hf⟩ | ⟨c, n, rfl⟩
  · rw [exec_init_eq]; exact onUnit_of_none _ h
  · rw [hf.exec_eq_onReady]; exact onUnit_of_none _ h
  · have hfirst : execDecode u mark0 s = .refused (.noSuchUnit u) := onUnit_of_none _ h
    exact congrArg (andThen · (decodeBytes u _)) hfirst

/-- Settles O8: the decoder has no operation for the code, and the machine no unit at the index. -/
theorem reservedCodesAndAbsentUnitsRefused : Obligations.ReservedCodesAndAbsentUnitsRefused := by
  refine ⟨fun s c rest hp hc => ?_, fun s i u hi hu => ?_⟩
  · rw [step_of_port_cons hp, issue_of_decode_error (decode_command_of_reserved hc)]
  · exact exec_of_absent hi (List.getElem?_eq_none hu)

/-! ### The length bytes at the header state machine (R51, R104 to R107) -/

/-- Where a header ends: in `DATA` if its length fits, else in `HEAD0` (R107). -/
def headerNext (x : CodecUnit) (n : U32) : RxState := if lengthFits x n then .data else .head0

/-- Four bytes from `LEN0` with `HDR.length` clear are assembled there, and the length is tested (R51, R107). -/
theorem hdrStep_lengthBytes {x : CodecUnit} (hs : x.ds.state = .len0) (h0 : x.hdr.length = 0) (a b d e : Byte) :
    hdrStep e (hdrStep d (hdrStep b (hdrStep a x))) =
      { x with hdr := { x.hdr with length := lengthOfBytes a b d e }
               ds := ⟨headerNext x (lengthOfBytes a b d e), x.ds.bytesCopied⟩ } := by
  simp only [hdrStep_len0, hdrStep_len1, hdrStep_len2, hdrStep_len3, hs, len3Eval, len3Next, lengthEval, h0]
  rfl

/-- Settles O4: the split byte by byte, the assembly by `hdr_step`, and that one undoes the other. -/
theorem lengthFieldIsLittleEndian : Obligations.LengthFieldIsLittleEndian := by
  refine ⟨fun c n k hk => ?_, fun x a b d e h0 hs => ?_, fun x n a b d e h0 hs hn => ?_⟩
  · rw [getElem?_headerBytes_length c n hk, lengthByte_eq_ofNat, Nat.pow_mul]
  · rw [hdrStep_lengthBytes hs h0]; exact toNat_lengthOfBytes a b d e
  · cases hn
    rw [hdrStep_lengthBytes hs h0]; exact lengthOfBytes_lengthByte n

/-! ### Bytes given to `DECODE` in order at one unit (R63, R110) -/

/-- Bytes given to `DECODE` in order take a unit from one to another, each with its result. -/
inductive DecodeRun : CodecUnit → List Byte → CodecUnit → List Result → Prop
  | nil (x : CodecUnit) : DecodeRun x [] x []
  | cons {x m y : CodecUnit} {b : Byte} {bs : List Byte} {r : Result} {rs : List Result}
      (hb : decodeUnit b x = .next (m, r)) (hbs : DecodeRun m bs y rs) : DecodeRun x (b :: bs) y (r :: rs)

/-- A byte outside `DATA` is one `hdr_step` and gives 0 (R110). -/
theorem DecodeRun.header {x y : CodecUnit} {b : Byte} {bs : List Byte} {rs : List Result} (hs : x.ds.state ≠ .data)
    (h : DecodeRun (hdrStep b x) bs y rs) : DecodeRun x (b :: bs) y (.decoded .pending :: rs) :=
  .cons (decodeUnit_header hs) h

theorem DecodeRun.append {x m y : CodecUnit} {as bs : List Byte} {qs rs : List Result} (h : DecodeRun x as m qs)
    (h' : DecodeRun m bs y rs) : DecodeRun x (as ++ bs) y (qs ++ rs) := by
  induction h with
  | nil => exact h'
  | cons hb _ ih => exact .cons hb (ih h')

theorem DecodeRun.length_eq {x y : CodecUnit} {bs : List Byte} {rs : List Result} (h : DecodeRun x bs y rs) :
    rs.length = bs.length := by
  induction h with
  | nil => rfl
  | cons _ _ ih => simp [ih]

/-- `DECODE` touches `HDR`, `DS` and `BUF` only (R110). -/
theorem decodeUnit_frame {b : Byte} {x y : CodecUnit} {r : Result} (h : decodeUnit b x = .next (y, r)) :
    ∃ hdr ds buf, y = { x with hdr := hdr, ds := ds, buf := buf } := by
  rcases decodeUnit_eq_next h with ⟨-, rfl, -⟩ | ⟨-, hp⟩
  · obtain ⟨hdr, ds, e⟩ := hdrStep_frame b x
    exact ⟨hdr, ds, x.buf, e⟩
  · obtain ⟨z, rfl, -, ⟨-, rfl, -⟩ | ⟨-, -, rfl, -⟩⟩ := payloadByte_eq_next hp <;> exact ⟨_, _, _, rfl⟩

theorem DecodeRun.frame {x y : CodecUnit} {bs : List Byte} {rs : List Result} (h : DecodeRun x bs y rs) :
    ∃ hdr ds buf, y = { x with hdr := hdr, ds := ds, buf := buf } := by
  induction h with
  | nil x => exact ⟨x.hdr, x.ds, x.buf, rfl⟩
  | cons hb _ ih =>
    obtain ⟨_, _, _, rfl⟩ := decodeUnit_frame hb
    obtain ⟨hdr, ds, buf, rfl⟩ := ih
    exact ⟨hdr, ds, buf, rfl⟩

/-- The machine after operations on unit `u` that left it as `y` and gave these results. -/
def State.afterUnit (s : State) (u : Nat) (y : CodecUnit) (rs : List Result) : State :=
  { s.setUnit u y with results := s.results ++ rs }

theorem afterUnit_self {s : State} {u : Nat} {x : CodecUnit} (h : s.units[u]? = some x) :
    s.afterUnit u x [] = s := by
  obtain ⟨hu, rfl⟩ := List.getElem?_eq_some_iff.mp h
  simp [State.afterUnit, State.setUnit]

theorem deliver_afterUnit (s : State) (u : Nat) (x y : CodecUnit) (r : Result) (rs : List Result) :
    ((s.setUnit u x).deliver r).afterUnit u y rs = s.afterUnit u y (r :: rs) := by
  simp [State.afterUnit, State.setUnit, State.deliver]

theorem execDecode_of_isReady {s : State} {u : Nat} {x y : CodecUnit} {b : Byte} {r : Result} (hx : s.isReady u x)
    (h : decodeUnit b x = .next (y, r)) : execDecode u b s = .next ((s.setUnit u y).deliver r) := by
  rw [execDecode, onReady_of_ready _ hx.1 hx.2, h, finish_next]

/-- A unit that `DECODE` leaves is there and initialised, as it was before. -/
theorem isReady_after_decode {s : State} {u : Nat} {x y : CodecUnit} {b : Byte} {r : Result} (hx : s.isReady u x)
    (h : decodeUnit b x = .next (y, r)) : ((s.setUnit u y).deliver r).isReady u y := by
  obtain ⟨_, _, _, rfl⟩ := decodeUnit_frame h
  exact ⟨setUnit_get_self _ hx.1, hx.2⟩

/-- A run of `DECODE`s at an initialised unit is a run of the machine. -/
theorem DecodeRun.decodeBytes_eq {s : State} {u : Nat} {x y : CodecUnit} {bs : List Byte} {rs : List Result}
    (h : DecodeRun x bs y rs) (hx : s.isReady u x) : decodeBytes u bs s = .next (s.afterUnit u y rs) := by
  induction h generalizing s with
  | nil => rw [afterUnit_self hx.1]; rfl
  | cons hb _ ih =>
    rw [decodeBytes, execDecode_of_isReady hx hb, andThen_next, ih (isReady_after_decode hx hb), deliver_afterUnit]

/-! ### A frame header at a searching unit (R50, R107) -/

/-- A first marker byte at a searching unit: whatever matched before, the search is after that byte (R100, R108). -/
theorem hdrStep_mark0 {x : CodecUnit} (h : x.searching) :
    ∃ m1 m2, hdrStep mark0 x = { x with hdr := ⟨mark0, m1, m2, x.hdr.checksum, 0⟩, ds := ⟨.head1, 0⟩ } := by
  rcases h with h | h | h
  · exact ⟨x.hdr.mark1, x.hdr.mark2, hdrStep_head0 h⟩
  · exact ⟨mark0, x.hdr.mark2, hdrStep_head1 h⟩
  · exact ⟨x.hdr.mark1, mark0, hdrStep_head2 h⟩

/-- The marker at a searching unit leads to `VERIFY` (R100 to R102). -/
theorem decodeRun_marker {x : CodecUnit} (h : x.searching) :
    DecodeRun x [mark0, mark1, mark2]
      { x with hdr := ⟨mark0, mark1, mark2, x.hdr.checksum, 0⟩, ds := ⟨.verify, 0⟩ }
      (List.replicate 3 (.decoded .pending)) := by
  obtain ⟨m1, m2, he⟩ := hdrStep_mark0 h
  have hs : x.ds.state ≠ .data := by rcases h with h | h | h <;> simp [h]
  refine .header hs ?_
  rw [he]
  exact .header nofun (.header nofun (.nil _))

/-- The bytes after the marker: the checksum is taken, the length assembled and tested (R103 to R107). -/
theorem decodeRun_checksumAndLength {x : CodecUnit} (hs : x.ds.state = .verify) (h0 : x.hdr.length = 0) (c : Byte)
    (n : U32) :
    DecodeRun x (c :: lengthBytes n)
      { x with hdr := { x.hdr with checksum := c, length := n }, ds := ⟨headerNext x n, x.ds.bytesCopied⟩ }
      (List.replicate 5 (.decoded .pending)) := by
  have hlen := hdrStep_lengthBytes (x := verifyEval c x) rfl h0 (lengthByte n 0) (lengthByte n 1) (lengthByte n 2)
    (lengthByte n 3)
  rw [lengthOfBytes_lengthByte] at hlen
  refine .header (by simp [hs]) ?_
  rw [hdrStep_verify hs]
  refine .header nofun (.header nofun (.header nofun (.header nofun ?_)))
  rw [hlen]
  exact .nil _

theorem decodeRun_headerBytes {x : CodecUnit} (h : x.searching) (c : Byte) (n : U32) :
    DecodeRun x (headerBytes c n) { x with hdr := ⟨mark0, mark1, mark2, c, n⟩, ds := ⟨headerNext x n, 0⟩ }
      (List.replicate 8 (.decoded .pending)) :=
  (decodeRun_marker h).append (decodeRun_checksumAndLength rfl rfl c n)

/-- Settles O34: the marker, then the checksum and the length, eight `DECODE`s in all. -/
theorem frameHeaderIsRecognised : Obligations.FrameHeaderIsRecognised :=
  fun _ _ c n _ hx hs => ⟨_, (decodeRun_headerBytes hs c n).decodeBytes_eq hx, rfl, rfl, rfl⟩

/-! ### A frame header at any initialised unit of a sound machine (R36, R63) -/

/-- `DECODE` on a sound initialised unit goes on: every access is inside `BUF` (R36). -/
theorem decodeUnit_goes_on {x : CodecUnit} {ils : Nat} (hx : x.Sound ils) (hr : x.status = .ready) (b : Byte) :
    ∃ y r, decodeUnit b x = .next (y, r) := by
  cases h : decodeUnit b x with
  | next p => exact ⟨p.1, p.2, rfl⟩
  | fault e => cases e
  | refused r =>
    obtain ⟨-, hout, -⟩ := decodeUnit_eq_refused h
    have hover : r = .encodeOverrun := (ReadyOp.decode (u := 0) b).refuses_only_encodeOverrun hx hr h
    cases hout.symm.trans hover

/-- Bytes from the wire go on at an initialised unit of a sound machine, as each byte leaves it sound. -/
theorem exists_decodeRun {s : State} {u : Nat} {x : CodecUnit} (hs : s.Sound) (hx : s.isReady u x) (bs : List Byte) :
    ∃ y rs, DecodeRun x bs y rs := by
  induction bs generalizing s x with
  | nil => exact ⟨x, [], .nil x⟩
  | cons b bs ih =>
    obtain ⟨m, r, hb⟩ := decodeUnit_goes_on (hs.2 x (List.mem_of_getElem? hx.1)) hx.2 b
    have hm := exec_sound (i := .decode u b) (execDecode_of_isReady hx hb) hs
    obtain ⟨y, rs, hbs⟩ := ih hm (isReady_after_decode hx hb)
    exact ⟨y, r :: rs, .cons hb hbs⟩

/-- Settles O35: a frame header is defined as the `DECODE`s of its bytes, and those go on from a sound machine. -/
theorem frameHeaderIsEightDecodes : Obligations.FrameHeaderIsEightDecodes := by
  intro s u c n
  refine ⟨?_, fun x hs hx => ?_⟩
  · rw [← headerBytes_eq]; exact decodeBytes_eq_execAll u (headerBytes c n) s
  · obtain ⟨y, rs, hrun⟩ := exists_decodeRun hs hx (headerBytes c n)
    obtain ⟨hdr, ds, buf, rfl⟩ := hrun.frame
    exact ⟨_, rs, hrun.decodeBytes_eq hx, rfl, hrun.length_eq⟩

end Sys2Proof.Machine

/-! ## The lifecycle of a buffer (40_buffer_lifecycle.md): `LAYOUT_SIZE`, `INIT`, `DECODE_RESET`, and a fresh frame -/

namespace Sys2Proof.Machine

/-! ### `LAYOUT_SIZE` (R70) -/

/-- Settles O18: `ILS` is a parameter, which no instruction changes. -/
theorem layoutSizeReturnsIls : Obligations.LayoutSizeReturnsIls := by
  refine ⟨fun _ => rfl, rfl, fun i s t h => ?_⟩
  rw [← (exec_sameParameters h).1]
  rfl

/-! ### What the host reads (R8, R41) -/

theorem hostRead_of_isReady {s : State} {u : Nat} {x : CodecUnit} (hx : s.isReady u x) (off n : Nat) :
    s.hostRead u off n = x.load off n := by
  obtain ⟨hu, hr⟩ := hx
  simp [State.hostRead, hu, hr]

theorem hostRead_of_not_ready {s : State} {u : Nat} {x : CodecUnit} (hu : s.units[u]? = some x)
    (hr : x.status ≠ .ready) (off n : Nat) : s.hostRead u off n = none := by
  cases h : x.status with
  | powerOn | failed => simp [State.hostRead, hu, h]
  | ready => exact absurd h hr

/-- Bytes stored at the start of an initialised unit's buffer are what the host reads there. -/
theorem hostRead_of_stored {s : State} {u : Nat} {x : CodecUnit} {m : Memory} {p : List Byte} (hx : s.isReady u x)
    (hbuf : x.buf = Memory.writeSeq m 0 p) (hm : Memory.wf m) (hl : p.length ≤ x.usableSpace.toNat) :
    s.hostRead u 0 p.length = some p := by
  rw [hostRead_of_isReady hx, load_of_inBuf (by simpa using hl), hbuf, Memory.readSeq_writeSeq hm]

/-- A memory that lists nothing reads as zeros (log entry 10). -/
theorem Memory.readSeq_nil (off n : Nat) : Memory.readSeq [] off n = List.replicate n 0 := by
  induction n generalizing off with
  | zero => rfl
  | succ n ih => rw [Memory.readSeq, ih, List.replicate_succ]; rfl

/-! ### `INIT` (R71, R72) -/

theorem exec_init_of_capacityOk {s : State} {u : Nat} {x : CodecUnit} (hx : s.units[u]? = some x)
    (h : capacityOk x.cap s.ils) :
    exec (.init u) s =
      .next ((s.setUnit u (x.initialised s.ils)).deliver (.usable (x.initialised s.ils).usableSpace)) := by
  rw [exec_init_eq, onUnit_of_some _ hx, initEffect, initUnit, if_pos h, finish_next]

theorem exec_init_of_not_capacityOk {s : State} {u : Nat} {x : CodecUnit} (hx : s.units[u]? = some x)
    (h : ¬ capacityOk x.cap s.ils) :
    exec (.init u) s = .next ((s.setUnit u (x.initFailed u)).deliver (.usable 0)) := by
  rw [exec_init_eq, onUnit_of_some _ hx, initEffect, initUnit, if_neg h, finish_next]
  rfl

/-- The usable space is `CAP - ILS` exactly: nothing is lost in 32 bits (log entry 15). -/
theorem toNat_usableSpace_initialised {x : CodecUnit} {ils : Nat} (h : capacityOk x.cap ils) :
    (x.initialised ils).usableSpace.toNat = x.cap.toNat - ils := by
  obtain ⟨-, hready, -⟩ := sound_initialised h
  obtain ⟨husable, -⟩ := hready rfl
  exact Nat.eq_sub_of_add_eq husable

/-- The host reads zeros in the whole usable region of a unit `INIT` has made ready. -/
theorem hostRead_initialised {s : State} {u off n : Nat} {x : CodecUnit} {ils : Nat}
    (hx : s.units[u]? = some (x.initialised ils)) (h : off + n ≤ (x.initialised ils).usableSpace.toNat) :
    s.hostRead u off n = some (List.replicate n 0) := by
  rw [hostRead_of_isReady ⟨hx, rfl⟩, load_of_inBuf h]
  exact congrArg some (Memory.readSeq_nil off n)

/-- Settles O19: the unit is left `initialised`, and its buffer lists nothing. -/
theorem initMakesTheUnitReady : Obligations.InitMakesTheUnitReady := by
  intro s u x hx hcap
  have husable := toNat_usableSpace_initialised hcap
  exact ⟨x.initialised s.ils, _, exec_init_of_capacityOk hx hcap, rfl, rfl, rfl, rfl, rfl, husable, by omega,
    fun off n hn => hostRead_initialised (setUnit_get_self _ hx) (hn.trans_eq husable.symm)⟩

/-- An instruction but `INIT` on a unit whose status refuses every operation is refused so, a frame header at its first
byte (R151, R153). -/
theorem exec_of_ifReady_refused {i : Instr} {s : State} {u : Nat} {x : CodecUnit} {r : Refusal}
    (hx : s.units[u]? = some x) (hr : ∀ f, ifReady f x = .refused r) (hu : i.unit? = some u) (hi : i ≠ .init u) :
    exec i s = .refused r := by
  have hready (f : CodecUnit → UnitOutcome) : onReady u f s = .refused r := by
    rw [onReady, onUnit_of_some _ hx, hr, finish_refused]
  rcases unit_instr_cases hu with rfl | ⟨f, hf⟩ | ⟨c, n, rfl⟩
  · exact absurd rfl hi
  · rw [hf.exec_eq_onReady]; exact hready f
  · exact congrArg (andThen · (decodeBytes u _)) (hready (decodeUnit mark0))

/-- Settles O20: the unit is left `initFailed`, whose status refuses all but `INIT`. -/
theorem failedInitLeavesTheUnitUnusable : Obligations.FailedInitLeavesTheUnitUnusable := by
  intro s u x hx hcap
  have hexec := exec_init_of_not_capacityOk hx (Nat.not_le_of_lt (Nat.lt_succ_of_le hcap))
  exact ⟨x.initFailed u, _, hexec, rfl, rfl, rfl, rfl, hostRead_of_not_ready (setUnit_get_self _ hx) nofun,
    fun _ => exec_of_ifReady_refused (setUnit_get_self _ hx) fun _ => rfl⟩

/-! ### `DECODE_RESET` (R73) -/

theorem exec_decodeReset_of_isReady {s : State} {u : Nat} {x : CodecUnit} (hx : s.isReady u x) :
    exec (.decodeReset u) s = .next ((s.setUnit u x.resetDs).deliver .resetDone) :=
  onReady_of_ready _ hx.1 hx.2

theorem isReady_after_reset {s : State} {u : Nat} {x : CodecUnit} (hx : s.isReady u x) :
    ((s.setUnit u x.resetDs).deliver .resetDone).isReady u x.resetDs :=
  ⟨setUnit_get_self _ hx.1, hx.2⟩

theorem setUnit_self {s : State} {u : Nat} {x : CodecUnit} (hx : s.units[u]? = some x) : s.setUnit u x = s := by
  obtain ⟨hu, rfl⟩ := List.getElem?_eq_some_iff.mp hx
  simp [State.setUnit]

/-- `DECODE_RESET` where `DS` is reset already changes no register. -/
theorem exec_decodeReset_of_reset {s : State} {u : Nat} {x : CodecUnit} (hx : s.isReady u x)
    (hd : x.ds = ⟨.head0, 0⟩) : exec (.decodeReset u) s = .next (s.deliver .resetDone) := by
  have hself : x.resetDs = x := by rw [CodecUnit.resetDs, ← hd]
  rw [exec_decodeReset_of_isReady hx, hself, setUnit_self hx.1]

/-- Settles O21: the second of two in a row finds `DS` reset. -/
theorem decodeResetWritesDsOnly : Obligations.DecodeResetWritesDsOnly := by
  refine fun s u x hx => ⟨exec_decodeReset_of_isReady hx, rfl, exec_decodeReset_of_reset hx, fun t ht => ?_⟩
  rw [exec_decodeReset_of_isReady hx] at ht
  cases ht
  exact exec_decodeReset_of_reset (isReady_after_reset hx) rfl

/-! ### A payload given to `DECODE` in order (R110, R112) -/

theorem toNat_bytesCopied_succ {x : CodecUnit} (h : x.ds.bytesCopied.toNat < x.usableSpace.toNat) :
    (x.ds.bytesCopied + 1).toNat = x.ds.bytesCopied.toNat + 1 := by
  have := x.usableSpace.isLt
  rw [BitVec.toNat_add]
  exact Nat.mod_eq_of_lt (by simp; omega)

theorem decodeVerdict_of_match {x : CodecUnit} {p : List Byte} (h : checksum p = x.hdr.checksum) :
    decodeVerdict x p = .success x.hdr.length := if_pos h

/-- The bytes a payload still lacks, given to `DECODE`: each but the last gives 0, and the last one the verdict on the
stored payload. -/
theorem decodeRun_payload {x : CodecUnit} {b : Byte} {bs : List Byte} (hd : x.ds.state = .data)
    (hl : lengthFits x x.hdr.length) (hn : x.ds.bytesCopied.toNat + bs.length + 1 = x.hdr.length.toNat) :
    DecodeRun x (b :: bs) { x.resetDs with buf := Memory.writeSeq x.buf x.ds.bytesCopied.toNat (b :: bs) }
      (List.replicate bs.length (.decoded .pending) ++
        [.decoded (decodeVerdict x (Memory.readSeq (Memory.writeSeq x.buf x.ds.bytesCopied.toNat (b :: bs)) 0
          x.hdr.length.toNat))]) := by
  induction bs generalizing x b with
  | nil =>
    have hn : x.ds.bytesCopied.toNat + 1 = x.hdr.length.toNat := hn
    have hlast : x.hdr.length.toNat ≤ (x.ds.bytesCopied + 1).toNat := by
      rw [toNat_bytesCopied_succ (by omega)]; omega
    exact .cons ((decodeUnit_data hd).trans (payloadByte_complete (by omega) hl hlast)) (.nil _)
  | cons c bs ih =>
    rw [List.length_cons] at hn
    have hsucc : (x.ds.bytesCopied + 1).toNat = x.ds.bytesCopied.toNat + 1 := toNat_bytesCopied_succ (by omega)
    have hrest := ih (x := CodecUnit.countByte { x with buf := Memory.write x.buf x.ds.bytesCopied.toNat b }) (b := c)
      hd hl (by simp only [countByte_bytesCopied, countByte_hdr, hsucc]; omega)
    rw [countByte_bytesCopied, hsucc] at hrest
    exact .cons ((decodeUnit_data hd).trans (payloadByte_incomplete (by omega) (by omega))) hrest

/-- A whole payload that fits, given to `DECODE` from its first byte: the verdict is on the bytes given. -/
theorem decodeRun_wholePayload {x : CodecUnit} {p : List Byte} (hm : Memory.wf x.buf) (hd : x.ds = ⟨.data, 0⟩)
    (hl : lengthFits x x.hdr.length) (hn : p.length = x.hdr.length.toNat) (hp : 1 ≤ p.length) :
    DecodeRun x p { x.resetDs with buf := Memory.writeSeq x.buf 0 p }
      (List.replicate (p.length - 1) (.decoded .pending) ++ [.decoded (decodeVerdict x p)]) := by
  obtain ⟨b, bs, rfl⟩ := List.exists_cons_of_length_pos hp
  have h0 : x.ds.bytesCopied.toNat = 0 := by rw [hd]; rfl
  have hrun := decodeRun_payload (b := b) (bs := bs) (by rw [hd]) hl (by simpa [h0] using hn)
  rw [h0, ← hn, Memory.readSeq_writeSeq hm] at hrun
  exact hrun

/-! ### A frame given to `DECODE` in order (R50, R89) -/

theorem toNat_seqLength_of_le {x : CodecUnit} {p : List Byte} (h : p.length ≤ x.usableSpace.toNat) :
    (seqLength p).toNat = p.length :=
  Nat.mod_eq_of_lt (Nat.lt_of_le_of_lt h x.usableSpace.isLt)

/-- A frame that fits, given to a searching unit: every byte but the last gives 0, the last one success. -/
theorem decodeRun_frame {x : CodecUnit} {p : List Byte} (hs : x.searching) (hm : Memory.wf x.buf)
    (hp : 1 ≤ p.length) (hl : p.length ≤ x.usableSpace.toNat) :
    DecodeRun x (frameOf (checksum p) p)
      { x with hdr := hdrOfFrame (checksum p) (seqLength p), ds := ⟨.head0, 0⟩, buf := Memory.writeSeq x.buf 0 p }
      (List.replicate (p.length + 7) (.decoded .pending) ++ [.decoded (.success (seqLength p))]) := by
  have hlen := toNat_seqLength_of_le hl
  have hfits : lengthFits x (seqLength p) := by rwa [lengthFits, hlen]
  have hheader := decodeRun_headerBytes hs (checksum p) (seqLength p)
  rw [headerNext, if_pos hfits] at hheader
  have hpayload := decodeRun_wholePayload (p := p)
    (x := { x with hdr := hdrOfFrame (checksum p) (seqLength p), ds := ⟨.data, 0⟩ }) hm rfl hfits hlen.symm hp
  rw [decodeVerdict_of_match rfl] at hpayload
  have hrun := hheader.append hpayload
  rw [← List.append_assoc, List.replicate_append_replicate, show 8 + (p.length - 1) = p.length + 7 by omega] at hrun
  exact hrun

/-- `DECODE_RESET`, then a run of `DECODE`s that goes on from the reset unit. -/
theorem DecodeRun.execAll_decodeReset {s : State} {u : Nat} {x y : CodecUnit} {bs : List Byte} {rs : List Result}
    (h : DecodeRun x.resetDs bs y rs) (hx : s.isReady u x) :
    execAll (.decodeReset u :: feed u bs) s = .next (s.afterUnit u y (.resetDone :: rs)) := by
  rw [execAll, exec_decodeReset_of_isReady hx, andThen_next, ← decodeBytes_eq_execAll,
    h.decodeBytes_eq (isReady_after_reset hx), deliver_afterUnit]

/-- Settles O45: after the reset the unit searches for a marker, and a frame that fits arrives there. -/
theorem resetThenFreshFrameSucceeds : Obligations.ResetThenFreshFrameSucceeds := by
  intro s u x p hs hx hp hl
  have hm : Memory.wf x.buf := (hs.2 x (List.mem_of_getElem? hx.1)).1
  have hrun := decodeRun_frame (x := x.resetDs) (.inl rfl) hm hp hl
  exact ⟨_, _, hrun.execAll_decodeReset hx, (List.append_assoc _ (_ :: _) _).symm,
    hostRead_of_stored ⟨setUnit_get_self _ hx.1, hx.2⟩ rfl hm hl, setUnit_get_self _ hx.1, rfl⟩

end Sys2Proof.Machine

/-! ## The checksum (41_checksum.md) and the failures it reports (60_exceptions.md R134) -/

namespace Sys2Proof.Machine

/-! ### The checksum as a sum of bytes modulo 256 (R80) -/

/-- The exact sum, over the bytes as numbers. -/
theorem byteSum_eq_sum_map (s : List Byte) : byteSum s = (s.map (·.toNat)).sum := by
  induction s with
  | nil => rfl
  | cons b s ih => rw [byteSum_cons, ih, List.map_cons, List.sum_cons]

/-- The exact sum in 8 bits is the sum of the bytes in 8 bits. -/
theorem ofNat_byteSum (s : List Byte) : BitVec.ofNat 8 (byteSum s) = s.sum := by
  induction s with
  | nil => rfl
  | cons b s ih => rw [byteSum_cons, BitVec.ofNat_add, ih, BitVec.ofNat_toNat, BitVec.setWidth_eq, List.sum_cons]

/-- The sum can be reduced before the bias is added: every law of the checksum is one of sums of 8-bit values. -/
theorem checksum_eq_sum_add (s : List Byte) : checksum s = s.sum + 89 := by
  rw [checksum, BitVec.ofNat_add, ofNat_byteSum]
  rfl

/-- The 8-bit accumulator that starts at the bias. -/
theorem checksum_eq_foldl (s : List Byte) : checksum s = s.foldl (· + ·) 0x59 := by
  rw [checksum_eq_sum_add, List.sum_eq_foldl, add_comm]
  exact (List.foldl_assoc (α := Byte) (op := (· + ·)) (a₁ := 0x59) (a₂ := 0)).symm

/-- Settles O23: the bias may be added to the sum or to the reduced sum, or be what the accumulator starts at. -/
theorem checksumIsBiasedByteSum : Obligations.ChecksumIsBiasedByteSum := by
  intro s
  have hsum : (checksum s).toNat = ((s.map (·.toNat)).sum + 89) % 256 := by rw [toNat_checksum, byteSum_eq_sum_map]
  exact ⟨hsum, hsum.trans (Nat.mod_add_mod ..).symm, checksum_eq_foldl s⟩

/-! ### Laws of the checksum (R82) -/

theorem checksum_append (s t : List Byte) : checksum (s ++ t) = checksum s + checksum t - 89 := by
  simp only [checksum_eq_sum_add, List.sum_append]
  ring

theorem checksum_perm {s t : List Byte} (h : s.Perm t) : checksum s = checksum t := by
  rw [checksum_eq_sum_add, checksum_eq_sum_add, h.sum_eq]

theorem checksum_append_zeros (s : List Byte) (n : Nat) : checksum (s ++ List.replicate n 0) = checksum s := by
  rw [checksum_eq_sum_add, checksum_eq_sum_add, List.sum_append, List.sum_replicate, smul_zero, add_zero]

/-- A changed byte moves the sum by the difference of the two bytes, which is not 0 modulo 256. -/
theorem checksum_set_ne {s : List Byte} {k : Nat} {b : Byte} (hk : k < s.length) (hb : b ≠ s[k]) :
    checksum (s.set k b) ≠ checksum s := by
  have hset : (s.set k b).sum = s.sum + (-s[k] + b) := by rw [List.sum_set', dif_pos hk]
  rw [checksum_eq_sum_add, checksum_eq_sum_add, hset]
  intro h
  have hdiff : -s[k] + b = 0 := add_eq_left.mp (add_right_cancel h)
  exact hb (neg_add_eq_zero.mp hdiff).symm

/-- Settles O24: the collision is 0, 3 and 1, 2. -/
theorem checksumLaws : Obligations.ChecksumLaws :=
  ⟨checksum_append, fun _ _ => checksum_perm, checksum_append_zeros, fun _ _ _ => checksum_set_ne,
    [0, 3], [1, 2], rfl, by decide, rfl⟩

/-! ### `CHECKSUM` (R81) -/

/-- Settles O25. The bound on the operand is not needed: the sum is exact. -/
theorem checksumOperationIsPure : Obligations.ChecksumOperationIsPure := by
  intro s bs _
  rw [← byteSum_eq_sum_map]
  rfl

/-! ### A payload with the wrong checksum (R110, R123, R134) -/

theorem decodeVerdict_of_mismatch {x : CodecUnit} {p : List Byte} (h : checksum p ≠ x.hdr.checksum) :
    decodeVerdict x p = .checksumFailure := if_neg h

theorem copyVerdict_of_mismatch {x : CodecUnit} {p : List Byte} (h : checksum p ≠ x.hdr.checksum) :
    copyVerdict x p = .checksumFailure := if_neg h

/-- `DECODE_COPY` of a slice of the right length: the verdict is on the bytes given (R123). -/
theorem exec_decodeCopy_of_match {s : State} {u : Nat} {x : CodecUnit} {src : List Byte} (hx : s.isReady u x)
    (hm : Memory.wf x.buf) (hd : x.ds.state = .data) (hl : lengthFits x x.hdr.length)
    (hn : src.length = x.hdr.length.toNat) :
    exec (.decodeCopy u src) s =
      .next ((s.setUnit u { x.resetDs with buf := Memory.writeSeq x.buf 0 src }).deliver
        (.copied (copyVerdict x src))) := by
  have hcopy := copyUnit_match hd hn hl
  rw [← hn, Memory.readSeq_writeSeq hm] at hcopy
  rw [exec, execDecodeCopy, onReady_of_ready _ hx.1 hx.2, hcopy, finish_next]

/-- Bytes given to `DECODE` in order, as the host issues them (R63). -/
theorem DecodeRun.execAll_feed {s : State} {u : Nat} {x y : CodecUnit} {bs : List Byte} {rs : List Result}
    (h : DecodeRun x bs y rs) (hx : s.isReady u x) : execAll (feed u bs) s = .next (s.afterUnit u y rs) := by
  rw [← decodeBytes_eq_execAll, h.decodeBytes_eq hx]

/-- Settles O47: either path stores the bytes given and judges them by their checksum, which the changed byte moves. -/
theorem oneChangedByteIsDetected : Obligations.OneChangedByteIsDetected := by
  intro s u x p k b hk hs hx hd hlen hsum hb
  obtain ⟨hm, hready, -⟩ := hs.2 x (List.mem_of_getElem? hx.1)
  obtain ⟨-, -, -, -, hdata⟩ := hready hx.2
  obtain ⟨hl, -⟩ := hdata hd
  have hq : (p.set k b).length = p.length := List.length_set
  have hn : (p.set k b).length = x.hdr.length.toNat := hq.trans hlen.symm
  have hne : checksum (p.set k b) ≠ x.hdr.checksum := hsum ▸ checksum_set_ne hk hb
  have hread (rs : List Result) :
      (s.afterUnit u { x.resetDs with buf := Memory.writeSeq x.buf 0 (p.set k b) } rs).hostRead u 0 (p.set k b).length =
        some (p.set k b) :=
    hostRead_of_stored ⟨setUnit_get_self _ hx.1, hx.2⟩ rfl hm (hn.trans_le hl)
  rw [← hq]
  refine ⟨⟨_, exec_decodeCopy_of_match hx hm hd hl hn, ?_, hread [_]⟩, fun h0 => ?_⟩
  · rw [copyVerdict_of_mismatch hne]
    rfl
  · have hrun := decodeRun_wholePayload hm (by rw [← hd, ← h0]) hl hn (by omega)
    rw [decodeVerdict_of_mismatch hne] at hrun
    exact ⟨_, hrun.execAll_feed hx, (List.append_assoc ..).symm, hread _⟩

end Sys2Proof.Machine

/-! ## The encoder (42_encoder.md): when `ENCODE` goes on, the frame it builds, and its way to another unit -/

namespace Sys2Proof.Machine

/-! ### When `ENCODE` goes on (R86, R87) -/

theorem exec_encode_of_isReady {s : State} {u : Nat} {x : CodecUnit} (hx : s.isReady u x) (p : List Byte) :
    exec (.encode u p) s = s.finish u (encodeUnit p x) :=
  onReady_of_ready _ hx.1 hx.2

theorem encodeUnit_of_tooLong {x : CodecUnit} {p : List Byte} (h : payloadTooLong x p.length) :
    encodeUnit p x = .next (x, .encoded 0) := if_pos h

theorem encodeUnit_of_overrun {x : CodecUnit} {p : List Byte} (h : ¬ payloadTooLong x p.length)
    (ho : frameOverruns x p.length) : encodeUnit p x = .refused .encodeOverrun := by
  rw [encodeUnit, if_neg h, if_pos ho]

/-- A frame that fits has a length that is not 0 in 32 bits: the result 0 says failure only. -/
theorem ofNat_frameLength_ne_zero {x : CodecUnit} {n : Nat} (h : ¬ frameOverruns x n) :
    BitVec.ofNat 32 (n + headerSize) ≠ 0 := by
  intro h0
  have hlt : n + headerSize < 2 ^ 32 := Nat.lt_of_le_of_lt (Nat.le_of_not_lt h) x.usableSpace.isLt
  have hzero : (n + headerSize) % 2 ^ 32 = 0 := congrArg BitVec.toNat h0
  rw [Nat.mod_eq_of_lt hlt] at hzero
  cases hzero

/-- Settles O27: too long a payload leaves the unit as it is, and any other result is the length of a frame. -/
theorem encodeFailsOnlyWhenTooLong : Obligations.EncodeFailsOnlyWhenTooLong := by
  intro s u x p hx
  rw [exec_encode_of_isReady hx]
  refine ⟨fun h => ?_, fun t ht hres => ?_⟩
  · rw [encodeUnit_of_tooLong h, finish_next, setUnit_self hx.1]
  · obtain ⟨y, r, he, rfl⟩ := finish_eq_next.mp ht
    obtain rfl : r = .encoded 0 := List.singleton_inj.mp (List.append_cancel_left hres)
    rcases encodeUnit_eq_next he with ⟨hlong, -, -⟩ | ⟨hfit, -, hr⟩
    · exact hlong
    · exact absurd (Result.encoded.inj hr).symm (ofNat_frameLength_ne_zero hfit)

theorem finish_eq_refused {s : State} {u : Nat} {o : UnitOutcome} {r : Refusal} :
    s.finish u o = .refused r ↔ o = .refused r := by
  cases o <;> simp [State.finish]

/-- `ENCODE` on an initialised unit is refused in the overrun window, for that reason, and nowhere else (R87). -/
theorem exec_encode_eq_refused {s : State} {u : Nat} {x : CodecUnit} {p : List Byte} {r : Refusal}
    (hx : s.isReady u x) :
    exec (.encode u p) s = .refused r ↔
      (frameOverruns x p.length ∧ p.length ≤ x.usableSpace.toNat) ∧ r = .encodeOverrun := by
  rw [exec_encode_of_isReady hx, finish_eq_refused]
  refine ⟨fun h => ?_, fun ⟨⟨ho, hn⟩, hr⟩ => ?_⟩
  · obtain ⟨hn, ho, hr⟩ := encodeUnit_eq_refused h
    exact ⟨⟨ho, Nat.le_of_not_lt hn⟩, hr⟩
  · rw [hr, encodeUnit_of_overrun (Nat.not_lt_of_le hn) ho]

/-- Settles O28: the window is where the payload passes the guard of R86 and its frame does not fit. -/
theorem encodeOverrunWindowRefused : Obligations.EncodeOverrunWindowRefused := by
  intro s u x p hx
  refine ⟨⟨fun ⟨r, h⟩ => ?_, fun h => ?_⟩, fun r h => ?_⟩
  · exact ((exec_encode_eq_refused hx).mp h).1
  · exact ⟨_, (exec_encode_eq_refused hx).mpr ⟨h, rfl⟩⟩
  · exact ((exec_encode_eq_refused hx).mp h).2

/-! ### The frame `ENCODE` builds (R85) -/

/-- The unit `ENCODE` of a payload whose frame fits leaves (R85). -/
def CodecUnit.withFrame (x : CodecUnit) (p : List Byte) : CodecUnit :=
  { x with hdr := hdrOfFrame (checksum p) (seqLength p), buf := Memory.writeSeq x.buf 0 (frameOf (checksum p) p) }

/-- The machine after `ENCODE` of a payload whose frame fits (R85). -/
def State.afterEncode (s : State) (u : Nat) (x : CodecUnit) (p : List Byte) : State :=
  (s.setUnit u (x.withFrame p)).deliver (.encoded (BitVec.ofNat 32 (p.length + 8)))

theorem exec_encode_eq_afterEncode {s : State} {u : Nat} {x : CodecUnit} {p : List Byte} (hx : s.isReady u x)
    (h : p.length + 8 ≤ x.usableSpace.toNat) : exec (.encode u p) s = .next (s.afterEncode u x p) :=
  exec_encode_of_fits hx h

theorem State.Sound.wf_buf {s : State} {u : Nat} {x : CodecUnit} (hs : s.Sound) (hx : s.units[u]? = some x) :
    Memory.wf x.buf :=
  (hs.2 x (List.mem_of_getElem? hx)).1

theorem isReady_afterEncode {s : State} {u : Nat} {x : CodecUnit} (hx : s.isReady u x) (p : List Byte) :
    (s.afterEncode u x p).isReady u (x.withFrame p) :=
  ⟨setUnit_get_self _ hx.1, hx.2⟩

/-- The host reads the frame out of the encoding unit. -/
theorem hostRead_afterEncode {s : State} {u : Nat} {x : CodecUnit} {p : List Byte} (hs : s.Sound)
    (hx : s.isReady u x) (h : p.length + 8 ≤ x.usableSpace.toNat) :
    (s.afterEncode u x p).hostRead u 0 (p.length + 8) = some (frameOf (checksum p) p) := by
  have hlen := length_frameOf (checksum p) p
  rw [← hlen]
  exact hostRead_of_stored (isReady_afterEncode hx p) rfl (hs.wf_buf hx.1) (hlen.trans_le h)

/-- The bytes of a frame written out, its length being exact in 32 bits (R50, R31). -/
theorem frameOf_eq {p : List Byte} (h : (seqLength p).toNat = p.length) (c : Byte) :
    frameOf c p = [0x4C, 0x4D, 0x58, c, BitVec.ofNat 8 p.length, BitVec.ofNat 8 (p.length / 2 ^ 8),
      BitVec.ofNat 8 (p.length / 2 ^ 16), BitVec.ofNat 8 (p.length / 2 ^ 24)] ++ p := by
  rw [frameOf, headerBytes_eq, h]

theorem Memory.read_writeSeq_of_ge {m : Memory} (hm : Memory.wf m) {off a : Nat} {bs : List Byte}
    (h : off + bs.length ≤ a) : Memory.read (Memory.writeSeq m off bs) a = Memory.read m a := by
  rw [Memory.read_writeSeq_of_range hm, if_neg (by omega)]

/-- Settles O26: the frame's bytes are stored from offset 0, which changes no byte above them. -/
theorem encodeBuildsTheFrame : Obligations.EncodeBuildsTheFrame := by
  intro s u x p hs hx h
  have hlen : (seqLength p).toNat = p.length := toNat_seqLength_of_le (Nat.le_of_add_right_le h)
  refine ⟨x.withFrame p, _, exec_encode_eq_afterEncode hx h, rfl, rfl, ?_, fun a ha => ?_⟩
  · rw [hostRead_afterEncode hs hx h, frameOf_eq hlen]
  · exact Memory.read_writeSeq_of_ge (hs.wf_buf hx.1) (by simpa using ha)

/-! ### The way to another unit by `DECODE` (R89) -/

theorem isReady_afterUnit {s : State} {u : Nat} {x : CodecUnit} (hx : s.isReady u x) (y : CodecUnit)
    (hy : y.status = x.status) (rs : List Result) : (s.afterUnit u y rs).isReady u y :=
  ⟨setUnit_get_self _ hx.1, hy.trans hx.2⟩

/-- The unit after a frame of the payload `p` has arrived there, by either path (R110, R123). -/
def CodecUnit.arrived (x : CodecUnit) (p : List Byte) : CodecUnit :=
  { x with hdr := hdrOfFrame (checksum p) (seqLength p), ds := ⟨.head0, 0⟩, buf := Memory.writeSeq x.buf 0 p }

/-- The host reads the payload out of the unit it has arrived at. -/
theorem hostRead_arrived {s : State} {u : Nat} {x : CodecUnit} {p : List Byte} (hx : s.isReady u x)
    (hm : Memory.wf x.buf) (hl : p.length ≤ x.usableSpace.toNat) (rs : List Result) :
    (s.afterUnit u (x.arrived p) rs).hostRead u 0 p.length = some p :=
  hostRead_of_stored (isReady_afterUnit hx (x.arrived p) rfl rs) rfl hm hl

theorem isReady_afterEncode_ne {s : State} {u v : Nat} {x z : CodecUnit} {p : List Byte} (huv : u ≠ v)
    (hz : s.isReady v z) : (s.afterEncode u x p).isReady v z :=
  ⟨(setUnit_get_ne s _ huv).trans hz.1, hz.2⟩

theorem xfer_of_hostRead {s : State} {u v c : Nat} {bytes : List Byte} (h : s.hostRead u 0 c = some bytes) :
    xfer s u v c = some (feed v bytes) := by
  rw [xfer, h]

/-- Settles O42: the host reads the frame at the one unit, and a frame that fits arrives at the other. -/
theorem roundTripByDecode : Obligations.RoundTripByDecode := by
  intro s u v x z p hs huv hx hz hsearch hp hfit hl
  have hm := hs.wf_buf hz.1
  have hz' := isReady_afterEncode_ne (x := x) (p := p) huv hz
  exact ⟨_, _, _, _, exec_encode_eq_afterEncode hx hfit, rfl, xfer_of_hostRead (hostRead_afterEncode hs hx hfit),
    (decodeRun_frame hsearch hm hp hl).execAll_feed hz', (List.append_assoc ..).symm,
    hostRead_arrived hz' hm hl _, setUnit_get_self _ hz'.1, rfl⟩

/-! ### Two reads of the host side by side (R41) -/

theorem Memory.readSeq_add (m : Memory) (off n k : Nat) :
    Memory.readSeq m off (n + k) = Memory.readSeq m off n ++ Memory.readSeq m (off + n) k := by
  induction n generalizing off with
  | zero => simp [Memory.readSeq]
  | succ n ih =>
    rw [Nat.add_right_comm, Memory.readSeq, ih, Memory.readSeq, List.cons_append, Nat.add_right_comm off 1 n]
    rfl

/-- What the host reads at once it can read in two parts. -/
theorem hostRead_append {s : State} {u off k : Nat} {x : CodecUnit} {as bs : List Byte} (hx : s.isReady u x)
    (h : s.hostRead u off (as.length + k) = some (as ++ bs)) :
    s.hostRead u off as.length = some as ∧ s.hostRead u (off + as.length) k = some bs := by
  rw [hostRead_of_isReady hx] at h
  obtain ⟨hin, hread⟩ := load_eq_some.mp h
  rw [Memory.readSeq_add] at hread
  obtain ⟨has, hbs⟩ := List.append_inj hread (Memory.length_readSeq ..).symm
  rw [hostRead_of_isReady hx, hostRead_of_isReady hx]
  exact ⟨load_eq_some.mpr ⟨by omega, has⟩, load_eq_some.mpr ⟨by omega, hbs⟩⟩

/-! ### A frame header by `DECODE_FIND` (R109, R120) -/

/-- Header bytes taken in order, none of them in `DATA`: each is one `hdr_step` (R109). -/
inductive HeaderRun : CodecUnit → List Byte → CodecUnit → Prop
  | nil (x : CodecUnit) : HeaderRun x [] x
  | cons {x y : CodecUnit} {b : Byte} {bs : List Byte} (hs : x.ds.state ≠ .data) (h : HeaderRun (hdrStep b x) bs y) :
      HeaderRun x (b :: bs) y

theorem exec_decodeFind_of_header {s : State} {u : Nat} {x : CodecUnit} (hx : s.isReady u x)
    (hs : x.ds.state ≠ .data) (b : Byte) :
    exec (.decodeFind u b) s = .next (s.afterUnit u (hdrStep b x) [.found (foundLength (hdrStep b x))]) := by
  have hfind : findUnit b x = hdrStep b x := if_neg hs
  rw [← hfind]
  exact onReady_of_ready _ hx.1 hx.2

/-- Header bytes given to `DECODE_FIND`: each but the last gives 0, as it leads to a state that is not `DATA`. -/
theorem HeaderRun.execAll_feedf {s : State} {u : Nat} {x y : CodecUnit} {b : Byte} {bs : List Byte}
    (h : HeaderRun x (b :: bs) y) (hx : s.isReady u x) :
    execAll (feedf u (b :: bs)) s =
      .next (s.afterUnit u y (List.replicate bs.length (.found 0) ++ [.found (foundLength y)])) := by
  induction bs generalizing s x b with
  | nil =>
    obtain _ | ⟨hs, ⟨⟩⟩ := h
    exact congrArg (andThen · _) (exec_decodeFind_of_header hx hs b)
  | cons c bs ih =>
    obtain _ | ⟨hs, h⟩ := h
    have hnot : foundLength (hdrStep b x) = 0 := by
      cases h with
      | cons hs _ => exact if_neg hs
    have hx' := isReady_afterUnit hx _ (hdrStep_status b x) [.found 0]
    rw [feedf, List.map_cons, execAll, exec_decodeFind_of_header hx hs, hnot, andThen_next]
    exact (ih h hx').trans (congrArg _ (deliver_afterUnit s u _ y _ _))

/-- A frame header at a searching unit: no byte of it is taken in `DATA`, and the length is tested at the last. -/
theorem headerRun_headerBytes {x : CodecUnit} (h : x.searching) (c : Byte) (n : U32) :
    HeaderRun x (headerBytes c n) { x with hdr := hdrOfFrame c n, ds := ⟨headerNext x n, 0⟩ } := by
  obtain ⟨m1, m2, hfirst⟩ := hdrStep_mark0 h
  have hs : x.ds.state ≠ .data := by rcases h with h | h | h <;> simp [h]
  have hlen := hdrStep_lengthBytes (x := { x with hdr := hdrOfFrame c 0, ds := ⟨.len0, 0⟩ }) rfl rfl
    (lengthByte n 0) (lengthByte n 1) (lengthByte n 2) (lengthByte n 3)
  rw [lengthOfBytes_lengthByte] at hlen
  refine .cons hs ?_
  rw [hfirst]
  refine .cons nofun (.cons nofun (.cons nofun (.cons nofun (.cons nofun (.cons nofun (.cons nofun ?_))))))
  exact hlen ▸ .nil _

/-- The unit after a header whose length fits has arrived there: the payload is due (R107). -/
def CodecUnit.awaitingPayload (x : CodecUnit) (c : Byte) (n : U32) : CodecUnit :=
  { x with hdr := hdrOfFrame c n, ds := ⟨.data, 0⟩ }

/-- A header whose length fits, given to a searching unit by `DECODE_FIND`: seven results of 0, then the length. -/
theorem execAll_feedf_headerBytes {s : State} {u : Nat} {x : CodecUnit} {n : U32} (hx : s.isReady u x)
    (hs : x.searching) (hn : lengthFits x n) (c : Byte) :
    execAll (feedf u (headerBytes c n)) s =
      .next (s.afterUnit u (x.awaitingPayload c n) (List.replicate 7 (.found 0) ++ [.found n])) := by
  have hrun := headerRun_headerBytes hs c n
  rw [headerNext, if_pos hn] at hrun
  exact HeaderRun.execAll_feedf hrun hx

/-! ### The way to another unit by `DECODE_FIND` and `DECODE_COPY` (R89) -/

theorem copyVerdict_of_match {x : CodecUnit} {p : List Byte} (h : checksum p = x.hdr.checksum) :
    copyVerdict x p = .success := if_pos h

theorem afterUnit_deliver (s : State) (u : Nat) (x y : CodecUnit) (r : Result) (rs : List Result) :
    ((s.afterUnit u x rs).setUnit u y).deliver r = s.afterUnit u y (rs ++ [r]) := by
  simp [State.afterUnit, State.setUnit, State.deliver]

/-- A frame that fits, given to a searching unit by the bulk path. -/
theorem execAll_feedf_decodeCopy {s : State} {u : Nat} {x : CodecUnit} {p : List Byte} (hx : s.isReady u x)
    (hs : x.searching) (hm : Memory.wf x.buf) (hl : p.length ≤ x.usableSpace.toNat) :
    execAll (feedf u (headerBytes (checksum p) (seqLength p)) ++ [.decodeCopy u p]) s =
      .next (s.afterUnit u (x.arrived p)
        (List.replicate 7 (.found 0) ++ [.found (seqLength p), .copied .success])) := by
  have hlen := toNat_seqLength_of_le hl
  have hfits : lengthFits x (seqLength p) := by rwa [lengthFits, hlen]
  have hx' := isReady_afterUnit hx (x.awaitingPayload (checksum p) (seqLength p)) rfl
  rw [execAll_append, execAll_feedf_headerBytes hx hs hfits, andThen_next, execAll,
    exec_decodeCopy_of_match (hx' _) hm rfl hfits hlen.symm, copyVerdict_of_match rfl, afterUnit_deliver,
    List.append_assoc]
  rfl

/-- Settles O43: the host reads header and payload at the one unit, and the bulk path takes them at the other. -/
theorem roundTripByFindAndCopy : Obligations.RoundTripByFindAndCopy := by
  intro s u v x z p hs huv hx hz hsearch hp hfit hl
  have hm := hs.wf_buf hz.1
  have hz' := isReady_afterEncode_ne (x := x) (p := p) huv hz
  have hread := hostRead_afterEncode hs hx hfit
  rw [Nat.add_comm] at hread
  obtain ⟨hheader, hpayload⟩ := hostRead_append (as := headerBytes _ _) (isReady_afterEncode hx p) hread
  exact ⟨_, _, _, _, _, exec_encode_eq_afterEncode hx hfit, hheader, hpayload,
    execAll_feedf_decodeCopy hz' hsearch hm hl, (List.append_assoc ..).symm,
    hostRead_arrived hz' hm hl _, setUnit_get_self _ hz'.1, rfl⟩

end Sys2Proof.Machine

/-! ## The incremental decoder (43_incremental_decoder.md): the header state machine, the marker search, `DECODE` -/

namespace Sys2Proof.Machine

/-! ### One header byte, by either operation (R100 to R107) -/

/-- Outside `DATA` both operations run `hdr_step` (R109). -/
theorem headerStep_of_hdrStep {s : State} {u : Nat} {b : Byte} {x y : CodecUnit} (hx : s.isReady u x)
    (hs : x.ds.state ≠ .data) (h : hdrStep b x = y) : s.headerStep u b y := by
  rw [← h]
  exact ⟨execDecode_of_isReady hx (decodeUnit_header hs), exec_decodeFind_of_header hx hs b⟩

/-- Settles O29: `hdr_step` in `HEAD0` is `head0_eval`. -/
theorem head0Byte : Obligations.Head0Byte :=
  fun _ _ _ _ hx hs => headerStep_of_hdrStep hx (by simp [hs]) (hdrStep_head0 hs)

/-- Settles O30: in either state the comparison chooses between the next state and `head0_eval`. -/
theorem markerByteMatchesOrRestarts : Obligations.MarkerByteMatchesOrRestarts := by
  refine fun s u b x hx => ⟨fun hs => ?_, fun hs => ?_⟩
  · have hstep {y : CodecUnit} (h : head1Eval b x = y) : s.headerStep u b y :=
      headerStep_of_hdrStep hx (by simp [hs]) ((hdrStep_head1 hs).trans h)
    exact ⟨fun hb => hstep (if_pos hb), fun hb => hstep (if_neg hb)⟩
  · have hstep {y : CodecUnit} (h : head2Eval b x = y) : s.headerStep u b y :=
      headerStep_of_hdrStep hx (by simp [hs]) ((hdrStep_head2 hs).trans h)
    exact ⟨fun hb => hstep (if_pos hb), fun hb => hstep (if_neg hb)⟩

/-- The first length byte is or-ed in where it stands (R104). -/
theorem orLengthByte_zero (v : U32) (b : Byte) : orLengthByte v b 0 = v ||| b.setWidth 32 := by
  simp [orLengthByte, zext32]

/-- The length bytes read before `LEN1` and `LEN2` leave zeros above them; before `LEN0` none is read (R20 item 4). -/
theorem CodecUnit.HeaderOk.length_bounds {x : CodecUnit} (h : x.HeaderOk) :
    (x.ds.state = .len0 → x.hdr.length.toNat < 2 ^ (8 * 0)) ∧
    (x.ds.state = .len1 → x.hdr.length.toNat < 2 ^ (8 * 1)) ∧
    (x.ds.state = .len2 → x.hdr.length.toNat < 2 ^ (8 * 2)) := by
  obtain ⟨-, -, -, ⟨h1, h2, -, h0⟩, -⟩ := h
  exact ⟨fun hs => by simp [h0 (by simp [hs])], h1, h2⟩

/-- Settles O31: `hdr_step` compares nothing in these states, and a byte or-ed in above every set bit is added there. -/
theorem checksumAndLengthBytesAccepted : Obligations.ChecksumAndLengthBytesAccepted := by
  refine fun s u b x hx => ⟨fun hs => ?_, fun hs => ?_, fun hs => ?_, fun hs => ?_, fun hok => ?_⟩
  · exact headerStep_of_hdrStep hx (by simp [hs]) (hdrStep_verify hs)
  · rw [← orLengthByte_zero]
    exact headerStep_of_hdrStep hx (by simp [hs]) (hdrStep_len0 hs)
  · exact headerStep_of_hdrStep hx (by simp [hs]) (hdrStep_len1 hs)
  · exact headerStep_of_hdrStep hx (by simp [hs]) (hdrStep_len2 hs)
  · obtain ⟨h0, h1, h2⟩ := hok.length_bounds
    refine ⟨fun hs => ?_, fun hs => toNat_orLengthByte (k := 1) (by decide) (h1 hs),
      fun hs => toNat_orLengthByte (k := 2) (by decide) (h2 hs)⟩
    have hzero := h0 hs
    rw [← orLengthByte_zero, toNat_orLengthByte (by decide) hzero]
    omega

/-- `hdr_step` in `LEN3` completes the length, and the bound on it chooses the state (R107). -/
theorem hdrStep_len3_eq {b : Byte} {x : CodecUnit} {n : U32} (hs : x.ds.state = .len3)
    (hn : n = orLengthByte x.hdr.length b 3) :
    hdrStep b x = { x with hdr := { x.hdr with length := n }, ds := ⟨headerNext x n, x.ds.bytesCopied⟩ } := by
  rw [hn, hdrStep_len3 hs]
  rfl

theorem headerNext_of_fits {x : CodecUnit} {n : U32} (h : lengthFits x n) : headerNext x n = .data := if_pos h

theorem headerNext_of_not_fits {x : CodecUnit} {n : U32} (h : ¬ lengthFits x n) : headerNext x n = .head0 := if_neg h

/-- Settles O32: the completed length fits, or it does not. -/
theorem len3TestsTheBound : Obligations.Len3TestsTheBound := by
  intro s u b x n hx hs hn
  have hstep := headerStep_of_hdrStep hx (by simp [hs]) (hdrStep_len3_eq hs hn)
  refine ⟨fun hfits => ?_, fun hover => ?_⟩
  · rwa [headerNext_of_fits hfits] at hstep
  · rwa [headerNext_of_not_fits (Nat.not_le_of_lt hover)] at hstep

/-! ### The search for a marker (R108) -/

/-- Where a searching unit goes with the next byte: each state but `HEAD0` asks for its own marker byte, and `HEAD1` is
entered from anywhere, since a byte that fails is examined again as a first marker byte (R100 to R102, R108). -/
theorem hdrStep_state_of_searching {b : Byte} {x : CodecUnit} (h : x.searching) :
    ((hdrStep b x).ds.state = .verify ↔ x.ds.state = .head2 ∧ b = mark2) ∧
    ((hdrStep b x).ds.state = .head2 ↔ x.ds.state = .head1 ∧ b = mark1) ∧
    ((hdrStep b x).ds.state = .head1 ↔ b = mark0) ∧
    ((hdrStep b x).ds.state = .verify ∨ (hdrStep b x).searching) := by
  have h10 : mark1 ≠ mark0 := by decide
  have h20 : mark2 ≠ mark0 := by decide
  rcases h with hs | hs | hs
  · rw [hdrStep_head0 hs]
    by_cases hb : b = mark0 <;> simp [head0Eval, CodecUnit.searching, hs, hb]
  · rw [hdrStep_head1 hs, head1Eval]
    by_cases hb : b = mark1
    · simp [CodecUnit.searching, hs, hb, h10]
    · by_cases hb0 : b = mark0 <;> simp [head0Eval, CodecUnit.searching, hs, hb, hb0, h10.symm]
  · rw [hdrStep_head2 hs, head2Eval]
    by_cases hb : b = mark2
    · simp [hs, hb, h20]
    · by_cases hb0 : b = mark0 <;> simp [head0Eval, CodecUnit.searching, hs, hb, hb0, h20.symm]

/-- A state names the marker bytes a sequence ends in: all three, the first two, the first, or none (R108). -/
structure NamesMarkerEnd (bs : List Byte) (r : RxState) : Prop where
  verify : r = .verify ↔ [mark0, mark1, mark2] <:+ bs
  head2 : r = .head2 ↔ [mark0, mark1] <:+ bs
  head1 : r = .head1 ↔ [mark0] <:+ bs
  cases : r = .verify ∨ r = .head0 ∨ r = .head1 ∨ r = .head2

theorem namesMarkerEnd_nil : NamesMarkerEnd [] .head0 := by
  refine ⟨iff_of_false nofun ?_, iff_of_false nofun ?_, iff_of_false nofun ?_, .inr (.inl rfl)⟩ <;>
    exact fun h => List.cons_ne_nil _ _ (List.suffix_nil.mp h)

/-- A sequence and its last byte at the end of another: the rest ends what stands before that one's last byte. -/
theorem concat_suffix_concat_iff {α : Type} {as bs : List α} {a b : α} :
    as ++ [a] <:+ bs ++ [b] ↔ as <:+ bs ∧ b = a := by
  rw [← List.reverse_prefix, List.reverse_concat, List.reverse_concat, List.cons_prefix_cons, List.reverse_prefix,
    and_comm, eq_comm (a := a)]

/-- One more byte at a unit whose state names the end of the bytes before, the marker not being complete there. -/
theorem NamesMarkerEnd.hdrStep {bs : List Byte} {x : CodecUnit} (h : NamesMarkerEnd bs x.ds.state) (hs : x.searching)
    (b : Byte) : NamesMarkerEnd (bs ++ [b]) (hdrStep b x).ds.state := by
  obtain ⟨hverify, hhead2, hhead1, hcases⟩ := hdrStep_state_of_searching (b := b) hs
  exact {
    verify := by rw [hverify, h.head2]; exact (concat_suffix_concat_iff (as := [mark0, mark1])).symm
    head2 := by rw [hhead2, h.head1]; exact (concat_suffix_concat_iff (as := [mark0])).symm
    head1 := by
      have hfirst : [mark0] <:+ bs ++ [b] ↔ [] <:+ bs ∧ b = mark0 :=
        concat_suffix_concat_iff (as := [])
      rw [hhead1, hfirst, and_iff_right List.nil_suffix]
    cases := hcases }

/-- A unit that names the end of bytes without a marker is searching. -/
theorem NamesMarkerEnd.searching {bs : List Byte} {x : CodecUnit} (h : NamesMarkerEnd bs x.ds.state)
    (hno : ¬ [mark0, mark1, mark2] <:+: bs) : x.searching :=
  h.cases.resolve_left fun hv => hno (h.verify.mp hv).isInfix

/-- Bytes searched from `HEAD0`, no marker standing before the last of them: every result is 0, and the state reached
names the end of the bytes. -/
theorem decodeRun_search {x : CodecUnit} {bs : List Byte} (h0 : x.ds.state = .head0)
    (hno : ¬ [mark0, mark1, mark2] <:+: bs.dropLast) :
    ∃ y, DecodeRun x bs y (List.replicate bs.length (.decoded .pending)) ∧ NamesMarkerEnd bs y.ds.state ∧
      y.buf = x.buf := by
  induction bs using List.reverseRecOn with
  | nil => exact ⟨x, .nil x, h0 ▸ namesMarkerEnd_nil, rfl⟩
  | append_singleton bs b ih =>
    rw [List.dropLast_concat] at hno
    obtain ⟨y, hrun, hend, hbuf⟩ := ih fun h => hno (h.trans (List.dropLast_prefix bs).isInfix)
    have hs := hend.searching hno
    have hnot : y.ds.state ≠ .data := by rcases hs with h | h | h <;> simp [h]
    refine ⟨hdrStep b y, ?_, hend.hdrStep hs b, (hdrStep_buf b y).trans hbuf⟩
    rw [List.length_append, ← List.replicate_append_replicate]
    exact hrun.append (.header hnot (.nil _))

/-- Settles O33: an induction over the bytes, each of them searched from a state that names those before it. -/
theorem markerSearchIsExact : Obligations.MarkerSearchIsExact := by
  intro s u x bs hx h0 hno
  obtain ⟨y, hrun, hend, hbuf⟩ := decodeRun_search h0 hno
  exact ⟨y, hrun.execAll_feed hx, hend.verify, hend.head2, hend.head1, hend.cases, hbuf⟩

/-- Bytes without a marker leave a unit in `HEAD0` searching, all but `HDR` and `DS` as before. -/
theorem decodeRun_garbage {x : CodecUnit} {g : List Byte} (h0 : x.ds.state = .head0)
    (hno : ¬ [mark0, mark1, mark2] <:+: g) :
    ∃ hdr ds, DecodeRun x g { x with hdr := hdr, ds := ds } (List.replicate g.length (.decoded .pending)) ∧
      CodecUnit.searching { x with hdr := hdr, ds := ds } := by
  obtain ⟨y, hrun, hend, hbuf⟩ := decodeRun_search h0 fun h => hno (h.trans (List.dropLast_prefix g).isInfix)
  obtain ⟨hdr, ds, buf, rfl⟩ := hrun.frame
  obtain rfl : buf = x.buf := hbuf
  exact ⟨hdr, ds, hrun, hend.searching hno⟩

/-- Settles O44: the garbage leaves the unit searching, in one of three states, and the frame arrives from each. -/
theorem garbageBeforeAFrameIsIgnored : Obligations.GarbageBeforeAFrameIsIgnored := by
  intro s u x g p hs hx h0 hno hp hl
  have hm := hs.wf_buf hx.1
  obtain ⟨hdr, ds, hgarbage, hsearch⟩ := decodeRun_garbage h0 hno
  have hrun := hgarbage.append (decodeRun_frame hsearch hm hp hl)
  rw [← List.append_assoc, List.replicate_append_replicate, ← Nat.add_assoc] at hrun
  exact ⟨_, _, hrun.execAll_feed hx, (List.append_assoc ..).symm, hostRead_arrived hx hm hl _,
    setUnit_get_self _ hx.1, rfl⟩

/-! ### A payload byte given to `DECODE` (R110, R112 to R114) -/

/-- The unit with a payload byte stored where it belongs, and nothing else changed (R110). -/
def CodecUnit.withPayloadByte (x : CodecUnit) (b : Byte) : CodecUnit :=
  { x with buf := Memory.write x.buf x.ds.bytesCopied.toNat b }

/-- In `DATA` the length fits and the next payload byte has a place in `BUF` (R16, R36). -/
theorem State.Sound.payload_bounds {s : State} {u : Nat} {x : CodecUnit} (hs : s.Sound) (hx : s.isReady u x)
    (hd : x.ds.state = .data) : lengthFits x x.hdr.length ∧ x.ds.bytesCopied.toNat < x.usableSpace.toNat := by
  obtain ⟨-, hready, -⟩ := hs.2 x (List.mem_of_getElem? hx.1)
  obtain ⟨-, -, -, -, hdata⟩ := hready hx.2
  exact hdata hd

/-- A payload byte that is not the last one: it is stored and counted. -/
theorem exec_decode_incomplete {s : State} {u : Nat} {x : CodecUnit} (hs : s.Sound) (hx : s.isReady u x)
    (hd : x.ds.state = .data) (b : Byte) (hi : x.ds.bytesCopied.toNat + 1 < x.hdr.length.toNat) :
    exec (.decode u b) s = .next ((s.setUnit u (x.withPayloadByte b).countByte).deliver (.decoded .pending)) := by
  obtain ⟨-, hin⟩ := hs.payload_bounds hx hd
  rw [← toNat_bytesCopied_succ hin] at hi
  exact execDecode_of_isReady hx ((decodeUnit_data hd).trans (payloadByte_incomplete hin hi))

/-- The last payload byte: it is stored, `DS` is reset, and the verdict is on the stored payload. -/
theorem exec_decode_complete {s : State} {u : Nat} {x : CodecUnit} (hs : s.Sound) (hx : s.isReady u x)
    (hd : x.ds.state = .data) (b : Byte) (hi : x.hdr.length.toNat ≤ x.ds.bytesCopied.toNat + 1) :
    exec (.decode u b) s = .next ((s.setUnit u (x.withPayloadByte b).resetDs).deliver
      (.decoded (decodeVerdict x (Memory.readSeq (x.withPayloadByte b).buf 0 x.hdr.length.toNat)))) := by
  obtain ⟨hl, hin⟩ := hs.payload_bounds hx hd
  rw [← toNat_bytesCopied_succ hin] at hi
  exact execDecode_of_isReady hx ((decodeUnit_data hd).trans (payloadByte_complete hin hl hi))

/-- Settles O36: a header byte, a payload byte with more to come, or the last one. -/
theorem decodeTakesOneByte : Obligations.DecodeTakesOneByte := by
  intro s u b x hs hx
  refine ⟨rfl, fun hd => execDecode_of_isReady hx (decodeUnit_header hd), fun hd => ?_⟩
  obtain ⟨hl, hin⟩ := hs.payload_bounds hx hd
  have hread := Memory.read_write (hs.wf_buf hx.1) x.ds.bytesCopied.toNat b
  rcases Nat.lt_or_ge (x.ds.bytesCopied.toNat + 1) x.hdr.length.toNat with hi | hi
  · exact ⟨_, _, _, exec_decode_incomplete hs hx hd b hi, rfl, rfl, hread,
      fun _ => ⟨hd, toNat_bytesCopied_succ hin, rfl⟩, fun hi' => absurd hi (Nat.not_lt_of_le hi')⟩
  · refine ⟨_, _, _, exec_decode_complete hs hx hd b hi, rfl, rfl, hread,
      fun hi' => absurd hi' (Nat.not_lt_of_le hi),
      fun _ => ⟨rfl, _, ?_, decodeVerdict_of_match, decodeVerdict_of_mismatch⟩⟩
    have hx' := isReady_afterUnit hx (x.withPayloadByte b).resetDs rfl
    exact (hostRead_of_isReady (hx' [.decoded _]) 0 _).trans (load_of_inBuf ((Nat.zero_add _).trans_le hl))

/-- The verdict on an empty payload: its checksum is the bias `0x59` alone (R80, R114). -/
theorem decodeVerdict_nil {x : CodecUnit} (h0 : x.hdr.length = 0) :
    decodeVerdict x [] = if x.hdr.checksum = 0x59 then .success 0 else .checksumFailure := by
  have hsum : checksum [] = 0x59 := rfl
  rw [decodeVerdict, hsum, h0]
  simp only [eq_comm]

/-- Settles O37: the length 0 passes the bound, and any first byte completes a payload of no bytes. -/
theorem zeroLengthFrameSwallowsAByte : Obligations.ZeroLengthFrameSwallowsAByte := by
  refine ⟨fun s u b x hx hs hn => ?_, fun s u b x hs hx hd h0 hc => ?_⟩
  · have hstep := headerStep_of_hdrStep hx (by simp [hs]) (hdrStep_len3_eq hs hn.symm)
    rwa [headerNext_of_fits (Nat.zero_le _)] at hstep
  · obtain ⟨-, hin⟩ := hs.payload_bounds hx hd
    have hm := hs.wf_buf hx.1
    have hexec := exec_decode_complete hs hx hd b (by simp [h0])
    have hverdict := decodeVerdict_nil h0
    have hbuf : (x.withPayloadByte b).buf = Memory.writeSeq x.buf 0 [b] := by
      rw [CodecUnit.withPayloadByte, hc]; rfl
    rw [h0] at hexec
    rw [show Memory.readSeq _ 0 (0 : U32).toNat = [] from rfl, hverdict] at hexec
    refine ⟨(x.withPayloadByte b).resetDs, _, ?_, rfl, fun a ha => ?_, rfl, hexec⟩
    · exact hostRead_of_stored (p := [b]) ⟨setUnit_get_self _ hx.1, hx.2⟩ hbuf hm (Nat.zero_lt_of_lt hin)
    · rw [resetDs_buf, hbuf]
      exact Memory.read_writeSeq_of_ge hm (Nat.pos_of_ne_zero ha)

end Sys2Proof.Machine

/-! ## The bulk decoder (44_bulk_decoder.md): `DECODE_FIND`, `DECODE_COPY`, leaving `DATA`, and the two decode paths -/

namespace Sys2Proof.Machine

/-! ### A run of header bytes, by either operation (R109, R124) -/

theorem HeaderRun.append {x m y : CodecUnit} {as bs : List Byte} (h : HeaderRun x as m) (h' : HeaderRun m bs y) :
    HeaderRun x (as ++ bs) y := by
  induction h with
  | nil => exact h'
  | cons hs _ ih => exact .cons hs (ih h')

/-- The same bytes given to `DECODE` take the unit to the same place, with results of 0 (R110). -/
theorem HeaderRun.decodeRun {x y : CodecUnit} {bs : List Byte} (h : HeaderRun x bs y) :
    DecodeRun x bs y (List.replicate bs.length (.decoded .pending)) := by
  induction h with
  | nil => exact .nil _
  | cons hs _ ih => exact .header hs ih

theorem HeaderRun.status_eq {x y : CodecUnit} {bs : List Byte} (h : HeaderRun x bs y) : y.status = x.status := by
  induction h with
  | nil => rfl
  | cons _ _ ih => exact ih.trans (hdrStep_status _ _)

theorem HeaderRun.sound {x y : CodecUnit} {bs : List Byte} {ils : Nat} (h : HeaderRun x bs y)
    (hr : x.status = .ready) (hx : x.Sound ils) : y.Sound ils := by
  induction h with
  | nil => exact hx
  | cons hs _ ih => exact ih ((hdrStep_status _ _).trans hr) (sound_hdrStep hr hs hx)

/-- No header byte counts as a payload byte (R15). -/
theorem HeaderRun.bytesCopied_eq_zero {x y : CodecUnit} {bs : List Byte} (h : HeaderRun x bs y)
    (h0 : x.ds.bytesCopied = 0) : y.ds.bytesCopied = 0 := by
  induction h with
  | nil => exact h0
  | cons _ _ ih => exact ih (hdrStep_bytesCopied h0)

/-! ### `DECODE_FIND` (R120, R121) -/

theorem exec_decodeFind_of_isReady {s : State} {u : Nat} {x : CodecUnit} (hx : s.isReady u x) (b : Byte) :
    exec (.decodeFind u b) s =
      .next ((s.setUnit u (findUnit b x)).deliver (.found (foundLength (findUnit b x)))) :=
  onReady_of_ready _ hx.1 hx.2

theorem findUnit_header {b : Byte} {x : CodecUnit} (h : x.ds.state ≠ .data) : findUnit b x = hdrStep b x := if_neg h

theorem findUnit_data {b : Byte} {x : CodecUnit} (h : x.ds.state = .data) : findUnit b x = x := if_pos h

theorem foundLength_data {x : CodecUnit} (h : x.ds.state = .data) : foundLength x = x.hdr.length := if_pos h

theorem foundLength_header {x : CodecUnit} (h : x.ds.state ≠ .data) : foundLength x = 0 := if_neg h

/-- `DECODE_FIND` touches `HDR` and `DS` only. -/
theorem findUnit_frame (b : Byte) (x : CodecUnit) :
    findUnit b x = { x with hdr := (findUnit b x).hdr, ds := (findUnit b x).ds } := by
  by_cases hd : x.ds.state = .data
  · rw [findUnit_data hd]
  · obtain ⟨h, d, e⟩ := hdrStep_frame b x
    rw [findUnit_header hd, e]

/-- The length reported has been tested against the usable space: at `LEN3`, or before (R107, R16). -/
theorem foundLength_findUnit_fits {x : CodecUnit} (hx : x.ds.state = .data → lengthFits x x.hdr.length) (b : Byte) :
    lengthFits x (foundLength (findUnit b x)) := by
  by_cases hfound : (findUnit b x).ds.state = .data
  · rw [foundLength_data hfound]
    by_cases hd : x.ds.state = .data
    · rw [findUnit_data hd]; exact hx hd
    · rw [findUnit_header hd] at hfound ⊢; exact hdrStep_lengthFits hd hfound
  · rw [foundLength_header hfound]; exact Nat.zero_le _

/-- Settles O38: the unit left is `findUnit`, and the length it reports has passed the bound. -/
theorem decodeFindReportsTheLength : Obligations.DecodeFindReportsTheLength := by
  intro s u b x hs hx
  exact ⟨_, _, exec_decodeFind_of_isReady hx b, findUnit_frame b x,
    foundLength_findUnit_fits (fun hd => (hs.payload_bounds hx hd).1) b,
    foundLength_data, foundLength_header, findUnit_header, findUnit_data⟩

/-! ### `DECODE_COPY` (R123) -/

theorem exec_decodeCopy_of_mismatch {s : State} {u : Nat} {x : CodecUnit} {src : List Byte} (hx : s.isReady u x)
    (h : copyMismatch x src.length) : exec (.decodeCopy u src) s = .next (s.deliver (.copied .mismatch)) := by
  have hcopy : copyUnit src x = .next (x, .copied .mismatch) := if_pos h
  rw [exec, execDecodeCopy, onReady_of_ready _ hx.1 hx.2, hcopy, finish_next, setUnit_self hx.1]

/-- Settles O39: a mismatch leaves the machine as it is, and a slice of the right length is stored from offset 0. -/
theorem decodeCopyTakesTheSlice : Obligations.DecodeCopyTakesTheSlice := by
  intro s u src x hs hx
  refine ⟨rfl, exec_decodeCopy_of_mismatch hx, fun hd hn => ?_⟩
  obtain ⟨hl, -⟩ := hs.payload_bounds hx hd
  have hm := hs.wf_buf hx.1
  exact ⟨_, _, _, exec_decodeCopy_of_match hx hm hd hl hn, rfl, rfl,
    hostRead_of_stored ⟨setUnit_get_self _ hx.1, hx.2⟩ rfl hm (hn.trans_le hl),
    fun a ha => Memory.read_writeSeq_of_ge hm (by omega), copyVerdict_of_match, copyVerdict_of_mismatch⟩

/-! ### Leaving `DATA` (R121) -/

theorem decodeVerdict_ne_pending (x : CodecUnit) (p : List Byte) : decodeVerdict x p ≠ .pending := by
  unfold decodeVerdict
  split <;> nofun

theorem copyVerdict_ne_mismatch (x : CodecUnit) (p : List Byte) : copyVerdict x p ≠ .mismatch := by
  unfold copyVerdict
  split <;> nofun

/-- The unit steps that lead out of `DATA`, each with its result. -/
theorem UnitStep.leaves_data {ils u : Nat} {i : Instr} {x y : CodecUnit} {r : Result} (h : UnitStep ils i x y r)
    (hu : i.unit? = some u) (hx : x.ds.state = .data) (hy : y.ds.state ≠ .data) :
    i = .init u ∨ i = .decodeReset u ∨ (∃ b d, i = .decode u b ∧ d ≠ .pending ∧ r = .decoded d) ∨
      (∃ src c, i = .decodeCopy u src ∧ c ≠ .mismatch ∧ r = .copied c) := by
  cases h with
  | initOk | initFailed => cases hu; exact .inl rfl
  | reset => cases hu; exact .inr (.inl rfl)
  | lastPayloadByte v b =>
    cases hu; exact .inr (.inr (.inl ⟨b, _, rfl, decodeVerdict_ne_pending _ _, rfl⟩))
  | copied v src =>
    cases hu; exact .inr (.inr (.inr ⟨src, _, rfl, copyVerdict_ne_mismatch _ _, rfl⟩))
  | headerByte v b x hr hs | findByte v b x hr hs => exact absurd hx hs
  | encodeTooLong | encoded | payloadByte | findInData | copyMismatch => exact absurd hx hy

/-- An instruction that changes a unit is one step of that unit, its result delivered, or a frame header. -/
theorem exec_changed_unit {i : Instr} {s t : State} {u : Nat} {x y : CodecUnit} (h : exec i s = .next t)
    (hx : s.units[u]? = some x) (hy : t.units[u]? = some y) (hne : y ≠ x) :
    (∃ r, i.unit? = some u ∧ UnitStep s.ils i x y r ∧ t.results = s.results ++ [r]) ∨
      ∃ c n, i = .frameHeader u c n := by
  have hu : i.unit? = some u := by
    by_contra hu
    rw [exec_units_ne h hu, hx] at hy
    exact hne (Option.some.inj hy).symm
  rcases exec_eq_next h with ⟨hn, -⟩ | ⟨v, x', y', r, hv, hx', hs, rfl⟩ | ⟨v, c, n, rfl, -⟩
  · cases hn.symm.trans hu
  · obtain rfl : v = u := Option.some.inj (hv.symm.trans hu)
    obtain rfl : x' = x := Option.some.inj (hx'.symm.trans hx)
    obtain rfl : y' = y := Option.some.inj ((setUnit_get_self y' hx).symm.trans hy)
    exact .inl ⟨r, hu, hs, rfl⟩
  · cases hu; exact .inr ⟨c, n, rfl⟩

/-- Settles O40: of the steps a unit can take, four lead out of `DATA`. -/
theorem dataIsLeftOnlyByTheseOperations : Obligations.DataIsLeftOnlyByTheseOperations := by
  intro i s t u x y h hx hd hy hnot
  have hne : y ≠ x := fun e => hnot (e ▸ hd)
  rcases exec_changed_unit h hx.1 hy hne with ⟨r, hu, hs, hres⟩ | hframe
  · rcases hs.leaves_data hu hd hnot with hi | hi | ⟨b, d, hi, hr, rfl⟩ | ⟨src, c, hi, hr, rfl⟩
    · exact .inl hi
    · exact .inr (.inl hi)
    · exact .inr (.inr (.inl ⟨b, d, hi, hr, hres⟩))
    · exact .inr (.inr (.inr (.inl ⟨src, c, hi, hr, hres⟩)))
  · exact .inr (.inr (.inr (.inr hframe)))

/-! ### The two decode paths (R124) -/

/-- One byte given to `DECODE_FIND` finds an initialised unit and leaves it as `findUnit` does. -/
theorem execAll_feedf_singleton_eq_next {s t : State} {u : Nat} {b : Byte} {y : CodecUnit}
    (h : execAll (feedf u [b]) s = .next t) (hy : t.units[u]? = some y) :
    ∃ x, s.isReady u x ∧ y = findUnit b x := by
  obtain ⟨m, hm, ht⟩ := andThen_eq_next.mp h
  cases ht
  obtain ⟨x, y', r, hx, hr, hf, rfl⟩ := onReady_eq_next.mp hm
  cases hf
  exact ⟨x, ⟨hx, hr⟩, Option.some.inj (hy.symm.trans (setUnit_get_self _ hx))⟩

/-- `DECODE_FIND` does not lead out of `DATA`: a unit it leaves elsewhere has taken each byte as a header byte. -/
theorem headerRun_of_execAll_feedf {s m : State} {u : Nat} {x z : CodecUnit} {bs : List Byte}
    (hx : s.units[u]? = some x) (h : execAll (feedf u bs) s = .next m) (hz : m.units[u]? = some z)
    (hnot : z.ds.state ≠ .data) : HeaderRun x bs z := by
  induction bs using List.reverseRecOn generalizing m z with
  | nil =>
    cases h
    obtain rfl := Option.some.inj (hx.symm.trans hz)
    exact .nil x
  | append_singleton bs b ih =>
    rw [feedf, List.map_append, execAll_append] at h
    obtain ⟨k, hk, hb⟩ := andThen_eq_next.mp h
    obtain ⟨y, hy, rfl⟩ := execAll_feedf_singleton_eq_next hb hz
    have hs : y.ds.state ≠ .data := fun hd => hnot (by rwa [findUnit_data hd])
    rw [findUnit_header hs]
    exact (ih hk hy.1 hs).append (.cons hs (.nil _))

/-- Header bytes, the last one leading to `DATA`, given to `DECODE_FIND`: the last result is the length. -/
theorem HeaderRun.execAll_feedf_concat {s : State} {u : Nat} {x y : CodecUnit} {h : List Byte} {b : Byte}
    (hrun : HeaderRun x (h ++ [b]) y) (hx : s.isReady u x) (hd : y.ds.state = .data) :
    execAll (feedf u (h ++ [b])) s =
      .next (s.afterUnit u y (List.replicate h.length (.found 0) ++ [.found y.hdr.length])) := by
  obtain ⟨c, cs, hcs⟩ := List.exists_cons_of_ne_nil (List.append_ne_nil_of_right_ne_nil h (List.cons_ne_nil b []))
  have hlen : h.length = cs.length := by simpa using congrArg List.length hcs
  rw [hcs] at hrun ⊢
  rw [hrun.execAll_feedf hx, foundLength_data hd, hlen]

/-- The unit is at the start of a payload of the length of `q`, for which its buffer has room. -/
structure CodecUnit.Awaits (y : CodecUnit) (q : List Byte) : Prop where
  ds : y.ds = ⟨.data, 0⟩
  wf : Memory.wf y.buf
  fits : lengthFits y y.hdr.length
  length : q.length = y.hdr.length.toNat

/-- The unit after the payload `q` is complete there, by either path (R110, R123). -/
def CodecUnit.completed (y : CodecUnit) (q : List Byte) : CodecUnit :=
  { y.resetDs with buf := Memory.writeSeq y.buf 0 q }

/-- Header bytes that lead a sound unit to `DATA` leave it at the start of its payload. -/
theorem HeaderRun.awaits {x y : CodecUnit} {bs q : List Byte} {ils : Nat} (h : HeaderRun x bs y)
    (hr : x.status = .ready) (hx : x.Sound ils) (hs : x.ds.state ≠ .data) (hd : y.ds.state = .data)
    (hq : q.length = y.hdr.length.toNat) : y.Awaits q := by
  obtain ⟨hm, hready', -⟩ := h.sound hr hx
  obtain ⟨-, hready, -⟩ := hx
  obtain ⟨-, -, -, hcount, -⟩ := hready hr
  obtain ⟨-, -, -, -, hdata⟩ := hready' (h.status_eq.trans hr)
  have h0 : y.ds.bytesCopied = 0 := h.bytesCopied_eq_zero (hcount hs)
  exact ⟨by rw [← hd, ← h0], hm, (hdata hd).1, hq⟩

/-- The incremental path: header bytes, then the payload, all by `DECODE`. -/
theorem HeaderRun.execAll_feed_payload {s : State} {u : Nat} {x y : CodecUnit} {h q : List Byte} {b : Byte}
    (hrun : HeaderRun x (h ++ [b]) y) (hx : s.isReady u x) (hy : y.Awaits q) (hq : 1 ≤ q.length) :
    execAll (feed u (h ++ [b] ++ q)) s =
      .next (s.afterUnit u (y.completed q)
        (List.replicate (h.length + q.length) (.decoded .pending) ++ [.decoded (decodeVerdict y q)])) := by
  have hall := hrun.decodeRun.append (decodeRun_wholePayload hy.wf hy.ds hy.fits hy.length hq)
  have hcount : (h ++ [b]).length + (q.length - 1) = h.length + q.length := by
    rw [List.length_append, List.length_singleton]; omega
  rw [← List.append_assoc, List.replicate_append_replicate, hcount] at hall
  exact hall.execAll_feed hx

/-- The bulk path: header bytes by `DECODE_FIND`, then the payload by one `DECODE_COPY`. -/
theorem HeaderRun.execAll_feedf_decodeCopy {s : State} {u : Nat} {x y : CodecUnit} {h q : List Byte} {b : Byte}
    (hrun : HeaderRun x (h ++ [b]) y) (hx : s.isReady u x) (hy : y.Awaits q) :
    execAll (feedf u (h ++ [b]) ++ [.decodeCopy u q]) s =
      .next (s.afterUnit u (y.completed q)
        (List.replicate h.length (.found 0) ++ [.found y.hdr.length, .copied (copyVerdict y q)])) := by
  have hd : y.ds.state = .data := by rw [hy.ds]
  have hx' := isReady_afterUnit hx y hrun.status_eq
  rw [execAll_append, hrun.execAll_feedf_concat hx hd, andThen_next, execAll,
    exec_decodeCopy_of_match (hx' _) hy.wf hd hy.fits hy.length, afterUnit_deliver, List.append_assoc]
  rfl

/-- The host reads the payload out of the unit it is complete at. -/
theorem HeaderRun.hostRead_completed {s : State} {u : Nat} {x y : CodecUnit} {bs q : List Byte}
    (hrun : HeaderRun x bs y) (hx : s.isReady u x) (hy : y.Awaits q) (rs : List Result) :
    (s.afterUnit u (y.completed q) rs).hostRead u 0 q.length = some q :=
  hostRead_of_stored (isReady_afterUnit hx (y.completed q) hrun.status_eq rs) rfl hy.wf (hy.length.trans_le hy.fits)

/-- The two verdicts on one payload correspond: both paths compare the same checksum (R124). -/
theorem verdicts_correspond (y : CodecUnit) (q : List Byte) :
    decodeVerdict y q = .success y.hdr.length ∧ copyVerdict y q = .success ∨
      decodeVerdict y q = .checksumFailure ∧ copyVerdict y q = .checksumFailure := by
  by_cases h : checksum q = y.hdr.checksum
  · exact .inl ⟨decodeVerdict_of_match h, copyVerdict_of_match h⟩
  · exact .inr ⟨decodeVerdict_of_mismatch h, copyVerdict_of_mismatch h⟩

/-- Settles O46: the bytes before the payload are header bytes by either path, and bring the unit to the same place;
there the payload is stored whole, and judged by one checksum. -/
theorem bothPathsLeaveTheSameUnits : Obligations.BothPathsLeaveTheSameUnits := by
  intro s m t u x y h q b hs hx hnot hm hmnot ht hy hd hlen hq
  obtain ⟨z, hz, rfl⟩ := execAll_feedf_singleton_eq_next ht hy
  have hznot := hmnot z hz.1
  rw [findUnit_header hznot] at hd hlen ⊢
  have hrun : HeaderRun x (h ++ [b]) (hdrStep b z) :=
    (headerRun_of_execAll_feedf hx.1 hm hz.1 hznot).append (.cons hznot (.nil _))
  have hawaits := hrun.awaits hx.2 (hs.2 x (List.mem_of_getElem? hx.1)) hnot hd hlen.symm
  exact ⟨_, _, _, _, hrun.execAll_feed_payload hx hawaits hq, hrun.execAll_feedf_decodeCopy hx hawaits, rfl, rfl,
    rfl, (List.append_assoc ..).symm, (List.append_assoc ..).symm,
    hrun.hostRead_completed hx hawaits _, verdicts_correspond _ q⟩

end Sys2Proof.Machine

/-! ## Reset and hazards (70_reset_and_hazards.md): units without a successful `INIT` (R151, R153) -/

namespace Sys2Proof.Machine

theorem ifReady_of_powerOn {x : CodecUnit} (h : x.status = .powerOn) (f : CodecUnit → UnitOutcome) :
    ifReady f x = .refused .unitNotInitialised := by
  simp [ifReady, h]

theorem ifReady_of_failed {x : CodecUnit} (h : x.status = .failed) (f : CodecUnit → UnitOutcome) :
    ifReady f x = .refused .unitInitFailed := by
  simp [ifReady, h]

/-- Settles O22: each of the two statuses gives every operation its refusal, and neither lets the host read. -/
theorem unreadyUnitsRefuseAllButInit : Obligations.UnreadyUnitsRefuseAllButInit := by
  refine fun s u x i hx hu hi => ⟨fun hpower => ?_, fun hfailed => ?_⟩
  · exact ⟨exec_of_ifReady_refused hx (ifReady_of_powerOn hpower) hu hi,
      hostRead_of_not_ready hx (by simp [hpower])⟩
  · exact ⟨exec_of_ifReady_refused hx (ifReady_of_failed hfailed) hu hi,
      hostRead_of_not_ready hx (by simp [hfailed])⟩

end Sys2Proof.Machine
